-- ==== Sys2Proof/Word.lean ====
section
/-!
DEFINITION. The one word type of the block: the 8-bit byte (spec/00_scope.md R8). Indices and lengths are natural
numbers that never wrap (R11), so they are `Nat` and have no word type.
-/

namespace Sys2Proof

/-- A byte; bit 7 is the most significant (R8). -/
abbrev Byte := BitVec 8

end Sys2Proof
end

