-- ==== Sys2Proof/Machine/State.lean ====
section
/-!
DEFINITION. The state of one instance of the block with its interface (spec/10_state.md), and the reasons a step can
stop. The block keeps nothing between operations (R20); what stands here is the request the host has issued (R24), the
response the last step delivered (R25) and SCAN's working values (R27).
-/

namespace Sys2Proof.Machine

/-- A byte space: (index, byte) pairs, indices strictly rising. An unlisted index holds no byte (R9, R40, R47,
assumption 6). -/
abbrev Memory := List Host.Cell

/-- The failures of `ENC` (R26). -/
inductive EncodeError where
  | emptyPayload
  | payloadTooLarge
deriving DecidableEq, Repr

/-- The failures of `SCAN` (R26), in the order they are tested (R145). -/
inductive DecodeError where
  | offsetOutOfRange
  | bufferTooShort
  | headerNotFound
  | truncatedLengthOrMarker
  | missingLengthFlag
  | emptyPayload
  | missingMarker
  | truncatedPayload
  | checksumMismatch
  | missingFooter
deriving DecidableEq, Repr

/-- The failure of `CSUM` (R26, R131). -/
inductive CsumError where
  | emptyInput
deriving DecidableEq, Repr

/-- A failure of one of the three operations; each has an error type of its own (R26). -/
inductive Failure where
  | encode (e : EncodeError)
  | decode (e : DecodeError)
  | csum (e : CsumError)
deriving DecidableEq, Repr

/-- `STATUS` by name (R25, R26); its 4-bit code is `statusCode` (R141). -/
inductive Status where
  | ok
  | failed (f : Failure)
deriving DecidableEq, Repr

/-- A request (R24). -/
structure Request where
  /-- `OP`, two bits (R75). -/
  op     : BitVec 2
  /-- `IN` (R40). -/
  input  : Memory
  /-- `IN_LEN` (R24). -/
  inLen  : Nat
  /-- `OFFSET` (R24); used by SCAN alone. -/
  offset : Nat
deriving DecidableEq, Repr

/-- A response (R25). `STATUS` always has a value; a field without a value is `none`. -/
structure Response where
  status : Status
  /-- `OUT` (R42). -/
  out    : Option Memory
  /-- `OUT_LEN`. -/
  outLen : Option Nat
  /-- `HDR_IDX`. -/
  hdrIdx : Option Nat
  /-- `END_IDX`. -/
  endIdx : Option Nat
  /-- `CSUM`. -/
  csum   : Option Byte
deriving DecidableEq, Repr

/-- The working values of an operation (R27, R28); they have no value outside one (R32). `L` is the request's
`IN_LEN`. -/
structure Work where
  pos : Option Nat
  h   : Option Nat
  n   : Option Nat
  p   : Option (List Byte)
  acc : Option Byte
deriving DecidableEq, Repr

/-- No operation in progress: no working value (R32). -/
def Work.idle : Work := ⟨none, none, none, none, none⟩

/-- One instance of the block with its interface. -/
structure State where
  /-- The host applies reset (R170, R171, assumption 4). -/
  resetIn  : Bool
  /-- Requests issued and not yet answered, oldest first (R174, assumption 1). -/
  requests : List Request
  /-- The response the last step delivered, if it delivered one (R23, R25, assumption 2). -/
  response : Option Response
  /-- The working values of an operation in progress (R27, R28). -/
  work     : Work
deriving DecidableEq, Repr

/-- Why the machine stops with a fault. No step from a well-formed state does (R47, R133). -/
inductive Fault where
  /-- Raised by `memRead` and `inByte`: a read of `IN` at an index that is not below `IN_LEN`, or that holds no byte. The
  spec names it a model error (R47). Safe. -/
  | readOutsideIn
  /-- Raised by `csumOf`: the checksum of an empty sequence inside ENC or SCAN, where it cannot arise (R133, U1).
  Safe. -/
  | emptyChecksum
  /-- Raised by `readField`: the host reads a response field that has no value (R25, R175, U2). Safe. -/
  | absentField
deriving DecidableEq, Repr

/-- Why the machine refuses to go on. -/
inductive Refusal where
  /-- Raised by `exec` for an instruction without a meaning (none is left). Safe. -/
  | notModelled (mnemonic : String)
  /-- Raised by `step`: the pending request carries `OP = 00` (R76, U3). Safe. -/
  | reservedOp
  /-- Raised by `step` and every meaning: a request was issued before the previous response (R174, U4). Safe. -/
  | requestOverlap
  /-- Raised by a meaning run on a state with no pending request; `step` never runs one there (assumption 14). Safe. -/
  | noRequest
  /-- Raised by the meaning of `FRAME.SUFFIX` run on a state in which no payload has been taken; `step` never runs it
  there (assumption 14). Safe. -/
  | noFramePayload
deriving DecidableEq, Repr

/-- Why an operation ends without success: a failure it raises (R12 `raise`), or a model fault. -/
inductive Stop where
  | raise (f : Failure)
  | fault (r : Fault)
deriving DecidableEq, Repr

/-- The block after reset (R32, R170): idle, no request held, no response, no working value, reset not applied. -/
def State.reset : State := ⟨false, [], none, Work.idle⟩

end Sys2Proof.Machine
end

