-- ==== Sys2Proof/Machine/Ops.lean ====
section
/-!
DEFINITION. The operations every meaning is built from: reading and writing a byte space (spec/20_memory.md, R12), the
exclusive-or fold (spec/42_checksum.md), delivering a response, and raising a failure, which is the block's one way to
take an exception (spec/60_exceptions.md R140, R150). There is no return from a failure (R151).
-/

namespace Sys2Proof.Machine

/-- The canonical form of a byte space: indices strictly rising (assumption 6). -/
abbrev Memory.wf (m : Memory) : Prop := (m.map Prod.fst).Pairwise (· < ·)

/-- The byte at index `a`, if one is listed there (R9). -/
def Memory.read : Memory → Nat → Option Byte
  | [], _ => none
  | (k, v) :: m, a => if k = a then some v else Memory.read m a

/-- One byte written: `OUT[a] <- b` (R12). The form stays canonical. -/
def Memory.write : Memory → Nat → Byte → Memory
  | [], a, b => [(a, b)]
  | (k, v) :: m, a, b =>
    if a < k then (a, b) :: (k, v) :: m
    else if a = k then (a, b) :: m
    else (k, v) :: Memory.write m a b

/-- `MemWrite(a, n, v)` with `n = |v|`: the bytes of `v` at indices `a`, `a + 1`, … in order (R12, R45). -/
def memWrite (m : Memory) (a : Nat) : List Byte → Memory
  | [] => m
  | b :: bs => memWrite (Memory.write m a b) (a + 1) bs

/-- The byte space that holds the bytes at indices `a`, `a + 1`, … and no others. -/
def Memory.cellsFrom (a : Nat) : List Byte → Memory
  | [] => []
  | b :: bs => (a, b) :: Memory.cellsFrom (a + 1) bs

/-- A byte sequence as a byte space: index 0 is the first byte (R9, R40). -/
def Memory.ofBytes (bs : List Byte) : Memory := Memory.cellsFrom 0 bs

/-- The byte space is a sequence of `n` bytes: it lists the indices 0 to `n − 1` and no others (R9, R40, R42). -/
abbrev Memory.filled (m : Memory) (n : Nat) : Prop := m.map Prod.fst = List.range n

/-- `csum(S)` for a non-empty `S` (R12, R130): the first byte, then each further byte folded in by exclusive-or. The
empty sequence has none (R131). -/
def xorFold : List Byte → Option Byte
  | [] => none
  | b :: bs => some (bs.foldl (· ^^^ ·) b)

/-- `csum(S)` inside ENC and SCAN, which have established that `S` is not empty (R133). -/
def csumOf (bs : List Byte) : Except Stop Byte :=
  match xorFold bs with
  | some c => .ok c
  | none => .error (.fault .emptyChecksum)

/-- The response of a failure: `STATUS` and nothing else (R25, R143, R150). -/
def Response.failure (f : Failure) : Response := ⟨.failed f, none, none, none, none, none⟩

/-- The response of a successful ENC: the frame and its length (R25, R90). -/
def Response.encOk (out : Memory) (outLen : Nat) : Response := ⟨.ok, some out, some outLen, none, none, none⟩

/-- The response of a successful SCAN (R25, R112). -/
def Response.scanOk (out : Memory) (outLen hdrIdx endIdx : Nat) : Response :=
  ⟨.ok, some out, some outLen, some hdrIdx, some endIdx, none⟩

/-- The response of a successful CSUM (R25, R130). -/
def Response.csumOk (c : Byte) : Response := ⟨.ok, none, none, none, none, some c⟩

/-- The operation ends with the response `x`: the request is answered and its working values are gone (R20, R23, R31,
R140). -/
def deliver (s : State) (x : Response) : State :=
  { s with requests := [], response := some x, work := Work.idle }

/-- `raise <Error>` (R12): the operation ends at once with the failure as its response (R140, R150). -/
def raiseFailure (s : State) (f : Failure) : State := deliver s (Response.failure f)

/-- How an operation ends: with its response, with the failure it raised, or with a model fault. -/
def conclude (s : State) : Except Stop Response → Host.Outcome State Fault Refusal
  | .ok x => .next (deliver s x)
  | .error (.raise f) => .next (raiseFailure s f)
  | .error (.fault r) => .fault r

/-- An operation acts on the one pending request (R23, R174). -/
def onRequest (s : State) (k : Request → Host.Outcome State Fault Refusal) : Host.Outcome State Fault Refusal :=
  match s.requests with
  | [] => .refused .noRequest
  | [r] => k r
  | _ :: _ :: _ => .refused .requestOverlap

end Sys2Proof.Machine
end

