-- ==== Sys2Proof/Machine/Operands.lean ====
section
/-!
DEFINITION. How an operation reads its operands: the bytes of the request's `IN` (spec/20_memory.md R40, R41, R47;
`MemRead` of spec/00_scope.md R12). Every access is one byte wide (R48) and none has a side effect.
-/

namespace Sys2Proof.Machine

/-- `IN[a]`: the byte at an index below `IN_LEN` (R12, R40). Any other index is the model error R47 asks for. -/
def inByte (r : Request) (a : Nat) : Except Stop Byte :=
  if a < r.inLen then
    match r.input.read a with
    | some b => .ok b
    | none => .error (.fault .readOutsideIn)
  else .error (.fault .readOutsideIn)

/-- The `n` bytes from index `a` on, one byte read at a time (R48). -/
def inBytes (r : Request) : Nat → Nat → Except Stop (List Byte)
  | _, 0 => .ok []
  | a, n + 1 => do
    let b ← inByte r a
    let bs ← inBytes r (a + 1) n
    .ok (b :: bs)

/-- `MemRead(a, n)`, which requires `a + n ≤ IN_LEN` (R12, R47). -/
def memRead (r : Request) (a n : Nat) : Except Stop (List Byte) :=
  if a + n ≤ r.inLen then inBytes r a n else .error (.fault .readOutsideIn)

end Sys2Proof.Machine
end

