-- ==== Sys2Proof/Machine/Checksum.lean ====
section
/-!
DEFINITION. The XOR checksum reducer, `CSUM` (spec/42_checksum.md R130 to R134).
-/

namespace Sys2Proof.Machine

/-- CSUM's response to a request (R130): `EmptyInput` for the empty sequence, never `0x00` (R131). -/
def checksumRequest (r : Request) : Except Stop Response :=
  if r.inLen = 0 then .error (.raise (.csum .emptyInput))
  else do
    let bs ← memRead r 0 r.inLen
    let c ← csumOf bs
    .ok (Response.csumOk c)

/-- `CSUM` (R130): one atomic operation on the pending request. -/
def execCsum (s : State) : Host.Outcome State Fault Refusal :=
  onRequest s fun r => conclude s (checksumRequest r)

end Sys2Proof.Machine
end

