-- ==== Sys2Proof/Machine/Format.lean ====
section
/-!
DEFINITION. The constants of the format in one place (spec/00_scope.md R6, spec/93_implementation_defined.md U7) and
the length field built from them (spec/30_encoding.md R66, R67).
-/

namespace Sys2Proof.Machine

/-- `HDR0`, the first header byte (R6). -/
def hdr0 : Byte := 0xA5

/-- `HDR1`, the second header byte (R6). -/
def hdr1 : Byte := 0x5A

/-- `LEN_FLAG`, bit 7 of the length field's high byte (R6, R63). -/
def lenFlag : Byte := 0x80

/-- `LEN_HI_MASK`, the seven length bits of the high byte (R6). -/
def lenHiMask : Byte := 0x7F

/-- `MARKER` (R6). -/
def marker : Byte := 0xA0

/-- `FOOTER` (R6). -/
def footer : Byte := 0x04

/-- `LEN_BITS`, the width of the length value in the length field (R6). -/
def lenBits : Nat := 15

/-- `ENC_MIN_PAYLOAD` (R6). -/
def encMinPayload : Nat := 1

/-- `ENC_MAX_PAYLOAD` (R6). -/
def encMaxPayload : Nat := 127

/-- `FRAME_OVERHEAD`, frame length minus payload length (R6, R61). -/
def frameOverhead : Nat := 7

/-- `PRECHECK_LIMIT` of SCAN's first step (R6, R101). -/
def precheckLimit : Nat := 7

/-- `SCAN_MAX_PAYLOAD = 2^LEN_BITS − 1` (R6). -/
def scanMaxPayload : Nat := 2 ^ lenBits - 1

/-- The high byte of the length field of a payload of `n` bytes (R67). -/
def lenHi (n : Nat) : Byte := lenFlag ||| BitVec.ofNat 8 (n >>> 8)

/-- The low byte of the length field of a payload of `n` bytes (R67). -/
def lenLo (n : Nat) : Byte := BitVec.ofNat 8 (n &&& 0xFF)

/-- The length decoded from the two length bytes (R66, R105): the flag bit is masked away, the first byte is the more
significant (R44). -/
def decodeLength (b2 b3 : Byte) : Nat :=
  (((b2 &&& lenHiMask).setWidth lenBits <<< 8) ||| b3.setWidth lenBits).toNat

end Sys2Proof.Machine
end

