-- ==== Sys2Proof/Machine/Encoder.lean ====
section
/-!
DEFINITION. The binary framing encoder, `ENC` (spec/40_encoder.md R90 to R95).
-/

namespace Sys2Proof.Machine

/-- `OUT` as ENC writes it, field by field at the indices of R49: header, length, marker, payload, checksum, footer
(R90, R92). -/
def encFrame (n : Nat) (p : List Byte) (c : Byte) : Memory :=
  let out0 := memWrite [] 0 [hdr0, hdr1]
  let out1 := memWrite out0 2 [lenHi n, lenLo n]
  let out2 := memWrite out1 4 [marker]
  let out3 := memWrite out2 5 p
  let out4 := memWrite out3 (5 + n) [c]
  memWrite out4 (6 + n) [footer]

/-- ENC's response to a request (R90). -/
def encodeRequest (r : Request) : Except Stop Response :=
  if r.inLen < encMinPayload then .error (.raise (.encode .emptyPayload))
  else if encMaxPayload < r.inLen then .error (.raise (.encode .payloadTooLarge))
  else do
    let p ← memRead r 0 r.inLen
    let c ← csumOf p
    .ok (Response.encOk (encFrame r.inLen p c) (r.inLen + frameOverhead))

/-- `ENC` (R90): one atomic operation on the pending request. -/
def execEnc (s : State) : Host.Outcome State Fault Refusal :=
  onRequest s fun r => conclude s (encodeRequest r)

end Sys2Proof.Machine
end

