-- ==== Sys2Proof/Machine/Scanner.lean ====
section
/-!
DEFINITION. The frame scanner/synchronizer, `SCAN` (spec/41_scanner.md R100 to R118): the source's ten steps, each
failure raised by the first test that fails (R145), in one atomic step (spec/10_state.md R23).
-/

namespace Sys2Proof.Machine

/-- `raise <Error>` with one of SCAN's failures (R12, R26). -/
def scanRaise {α : Type} (e : DecodeError) : Except Stop α := .error (.raise (.decode e))

/-- Step 2 (R102): `fuel` pairs are left to test, the next one at `pos`, `pos + 1`. -/
def findHeader (r : Request) : Nat → Nat → Except Stop Nat
  | 0, _ => scanRaise .headerNotFound
  | fuel + 1, pos => do
    let b0 ← inByte r pos
    let b1 ← inByte r (pos + 1)
    if b0 = hdr0 ∧ b1 = hdr1 then .ok pos else findHeader r fuel (pos + 1)

/-- Steps 3 to 5 at header index `h` (R103 to R107): the length `N` behind a well-formed prefix. -/
def frameLength (r : Request) (h : Nat) : Except Stop Nat :=
  if r.inLen - (h + 2) < 3 then scanRaise .truncatedLengthOrMarker
  else do
    let b2 ← inByte r (h + 2)
    if b2 &&& lenFlag = 0 then scanRaise .missingLengthFlag
    else
      let b3 ← inByte r (h + 3)
      let n := decodeLength b2 b3
      if n = 0 then scanRaise .emptyPayload
      else
        let b4 ← inByte r (h + 4)
        if b4 ≠ marker then scanRaise .missingMarker else .ok n

/-- Steps 6 and 7 (R108, R109): the whole frame must fit, the bytes counted from the marker's index; then the payload
is the `n` bytes after the marker. -/
def takePayload (r : Request) (h n : Nat) : Except Stop (List Byte) :=
  if r.inLen - (h + 4) < n + 3 then scanRaise .truncatedPayload else memRead r (h + 5) n

/-- Step 10 (R112): `END_IDX` is the footer's own index. -/
def scanSuccess (h n : Nat) (p : List Byte) : Response :=
  Response.scanOk (memWrite [] 0 p) n h (h + 6 + n)

/-- Step 8's test (R110) on the checksum `acc` of the payload and the byte `c` found after it, and what follows it. -/
def verifyChecksum (acc c : Byte) (next : Except Stop Response) : Except Stop Response :=
  if acc ^^^ c ≠ 0 then scanRaise .checksumMismatch else next

/-- Steps 8 to 10 (R110 to R112). -/
def scanEnd (r : Request) (h n : Nat) (p : List Byte) : Except Stop Response := do
  let acc ← csumOf p
  let c ← inByte r (h + 5 + n)
  verifyChecksum acc c do
    let f ← inByte r (h + 6 + n)
    if f ≠ footer then scanRaise .missingFooter else .ok (scanSuccess h n p)

/-- Steps 3 to 10 once step 2 has fixed `h`: a failure here is the operation's result, no later header is tried
(R113). -/
def scanAt (r : Request) (h : Nat) : Except Stop Response := do
  let n ← frameLength r h
  let p ← takePayload r h n
  scanEnd r h n p

/-- Steps 2 to 10 with the cursor at `pos`; the last pair tested is (`L − 2`, `L − 1`) (R102). -/
def scanFrom (r : Request) (pos : Nat) : Except Stop Response := do
  let h ← findHeader r (r.inLen - 1 - pos) pos
  scanAt r h

/-- All ten steps (R101 to R112). -/
def scanRequest (r : Request) : Except Stop Response :=
  if r.inLen ≤ r.offset then scanRaise .offsetOutOfRange
  else if r.inLen - r.offset ≤ precheckLimit then scanRaise .bufferTooShort
  else scanFrom r r.offset

/-- What is left of SCAN: all of it when no operation is in progress; else the steps that the working values show are
still to be made (assumption 8). -/
def scanRest (r : Request) (w : Work) : Except Stop Response :=
  match w with
  | ⟨some _, some h, some n, some p, some _⟩ => scanEnd r h n p
  | ⟨some pos, _, _, _, _⟩ => scanFrom r pos
  | ⟨none, _, _, _, _⟩ => scanRequest r

/-- `SCAN` (R100): the operation, or what is left of it, in one atomic step on the pending request. -/
def execScan (s : State) : Host.Outcome State Fault Refusal :=
  onRequest s fun r => conclude s (scanRest r s.work)

end Sys2Proof.Machine
end

