-- ==== Sys2Proof/Machine/WireFrame.lean ====
section
/-!
DEFINITION. The two wire-frame rows of the opcode table (spec/30_encoding.md R62, R64, R79) as the two moves of the
recogniser R79 describes: match the prefix, take `N`, skip `N` bytes, match the suffix, then apply the checksum test.
They are SCAN's steps cut at the two patterns (assumption 7); the working values of R27 stand between them.
-/

namespace Sys2Proof.Machine

/-- What a prefix with length `n` at index `h` leads to, its flag and marker having matched with the pattern: the zero
test (R106), the payload and its checksum (R108, R109, R110). -/
def prefixEffect (r : Request) (h n : Nat) : Except Stop (List Byte × Byte) :=
  if n = 0 then scanRaise .emptyPayload
  else do
    let p ← takePayload r h n
    let acc ← csumOf p
    .ok (p, acc)

/-- The working values when the payload has been taken: the cursor stands at the suffix (R27, R79). -/
def Work.atSuffix (h n : Nat) (p : List Byte) (acc : Byte) : Work :=
  ⟨some (h + 5 + n), some h, some n, some p, some acc⟩

/-- `FRAME.PREFIX` at the cursor, whose first value is `OFFSET` (R102): the operation goes on at the suffix, or ends
with the failure SCAN gives. No response is delivered while it is in progress (R23). -/
def execFramePrefix (n : Nat) (s : State) : Host.Outcome State Fault Refusal :=
  onRequest s fun r =>
    let h := s.work.pos.getD r.offset
    match prefixEffect r h n with
    | .ok (p, acc) => .next { s with response := none, work := Work.atSuffix h n p acc }
    | .error e => conclude s (.error e)

/-- `FRAME.SUFFIX` with checksum byte `c`: the checksum test (R110), then success, the footer having matched with the
pattern (R111, R112). -/
def execFrameSuffix (c : Byte) (s : State) : Host.Outcome State Fault Refusal :=
  onRequest s fun _ =>
    match s.work with
    | ⟨some _, some h, some n, some p, some acc⟩ => conclude s (verifyChecksum acc c (.ok (scanSuccess h n p)))
    | _ => .refused .noFramePayload

end Sys2Proof.Machine
end

