-- ==== Sys2Proof/Syntax.lean ====
section
/-!
DEFINITION. The rows of spec/opcode_table.json as one inductive. The three operations carry no operand of their own:
their operands are the request's fields (spec/10_state.md R24), which stand in the state. The two wire-frame rows carry
the field their pattern holds (spec/30_encoding.md R62, R64).
-/

namespace Sys2Proof

/-- One constructor per row of the opcode table. -/
inductive Instr where
  /-- `ENC`: encode a payload into a frame (R90). -/
  | enc
  /-- `SCAN`: find, validate and extract the first frame (R100). -/
  | scan
  /-- `CSUM`: reduce a byte sequence by exclusive-or (R130). -/
  | csum
  /-- `FRAME.PREFIX`: the five bytes before a payload of `n` bytes (R62). -/
  | framePrefix (n : Nat)
  /-- `FRAME.SUFFIX`: the checksum byte `c` and the footer (R64). -/
  | frameSuffix (c : Byte)
deriving DecidableEq, Repr

end Sys2Proof
end

