-- ==== Sys2Proof/Machine/Dispatch.lean ====
section
/-!
DEFINITION. The dispatch from an instruction to its meaning: one arm per row of spec/opcode_table.json.
-/

namespace Sys2Proof.Machine

def exec (i : Instr) (s : State) : Host.Outcome State Fault Refusal :=
  match i with
  | .enc => Sys2Proof.Machine.execEnc s
  | .scan => Sys2Proof.Machine.execScan s
  | .csum => Sys2Proof.Machine.execCsum s
  | .framePrefix n => Sys2Proof.Machine.execFramePrefix n s
  | .frameSuffix c => Sys2Proof.Machine.execFrameSuffix c s

end Sys2Proof.Machine
end

