-- ==== Sys2Proof/WellFormed.lean ====
section
/-!
DEFINITION. Well-formed instructions: those the encodings of spec/30_encoding.md can carry.
-/

namespace Sys2Proof

/-- A frame prefix carries a 15-bit length (R62, R66); length 0 is a prefix too, one that SCAN answers with
`EmptyPayload` (R71, assumption 19). Every other row has no operand its encoding could not carry. -/
def Instr.wf : Instr → Bool
  | .enc => true
  | .scan => true
  | .csum => true
  | .framePrefix n => decide (n ≤ Machine.scanMaxPayload)
  | .frameSuffix _ => true

end Sys2Proof
end

