-- ==== Sys2Proof/Decode.lean ====
section
/-!
DEFINITION. Decoding and encoding (spec/30_encoding.md). The block has two encodings: the operation select `OP` of a
request (R75, R76) and the bytes of a wire frame's fixed parts (R62, R64). Decoding is total and rejects by name; the
encoder stands after it.
-/

namespace Sys2Proof

/-- What is decoded: the two select bits of a request, or bytes that stand on the wire, lowest index first. -/
inductive Code where
  | op (v : BitVec 2)
  | frame (bytes : List Byte)
deriving DecidableEq, Repr

/-- Why a code is no instruction. -/
inductive Reject where
  /-- `OP = 00` (R76). -/
  | reservedOp
  /-- Five bytes that are not a frame prefix (R62). -/
  | notPrefix
  /-- Two bytes that are not a frame suffix (R64). -/
  | notSuffix
  /-- Wire bytes that are neither five nor two. -/
  | frameLength
deriving DecidableEq, Repr

/-- The code of `ENC` (R75). -/
def opEnc : BitVec 2 := 0b01

/-- The code of `SCAN` (R75). -/
def opScan : BitVec 2 := 0b10

/-- The code of `CSUM` (R75). -/
def opCsum : BitVec 2 := 0b11

/-- The operation `OP` selects (R75); `00` is reserved (R76). -/
def decodeOp (v : BitVec 2) : Except Reject Instr :=
  if v = opEnc then .ok .enc
  else if v = opScan then .ok .scan
  else if v = opCsum then .ok .csum
  else .error .reservedOp

/-- The fixed bits of a frame prefix, byte 0 leftmost (R62). -/
def prefixMatch : BitVec 40 := Machine.hdr0 ++ Machine.hdr1 ++ Machine.lenFlag ++ (0x00 : Byte) ++ Machine.marker

/-- Which bits of a frame prefix are fixed (R62, R70). -/
def prefixMask : BitVec 40 := (0xFF : Byte) ++ (0xFF : Byte) ++ Machine.lenFlag ++ (0x00 : Byte) ++ (0xFF : Byte)

/-- Five bytes as a frame prefix: the fixed bits must match, and then the `LEN_BITS` bits from bit 8 up are the length
(R62). -/
def decodePrefix (w : BitVec 40) : Except Reject Instr :=
  if w &&& prefixMask = prefixMatch then .ok (.framePrefix ((w >>> 8).toNat % 2 ^ Machine.lenBits))
  else .error .notPrefix

/-- The fixed bits of a frame suffix (R64). -/
def suffixMatch : BitVec 16 := (0x00 : Byte) ++ Machine.footer

/-- Which bits of a frame suffix are fixed (R64). -/
def suffixMask : BitVec 16 := (0x00 : Byte) ++ (0xFF : Byte)

/-- Two bytes as a frame suffix: the second must be the footer, the first is the checksum (R64). -/
def decodeSuffix (w : BitVec 16) : Except Reject Instr :=
  if w &&& suffixMask = suffixMatch then .ok (.frameSuffix ((w >>> 8).setWidth 8)) else .error .notSuffix

/-- The decoder, total on every code. -/
def decode : Code → Except Reject Instr
  | .op v => decodeOp v
  | .frame [b0, b1, b2, b3, b4] => decodePrefix (b0 ++ b1 ++ b2 ++ b3 ++ b4)
  | .frame [b0, b1] => decodeSuffix (b0 ++ b1)
  | .frame _ => .error .frameLength

/-- The five bytes before a payload of `n` bytes (R60, R62, R67). -/
def prefixBytes (n : Nat) : List Byte :=
  [Machine.hdr0, Machine.hdr1, Machine.lenHi n, Machine.lenLo n, Machine.marker]

/-- The two bytes after a payload with checksum `c` (R60, R64). -/
def suffixBytes (c : Byte) : List Byte := [c, Machine.footer]

/-- The encoder: the code of an instruction. -/
def encode : Instr → Code
  | .enc => .op opEnc
  | .scan => .op opScan
  | .csum => .op opCsum
  | .framePrefix n => .frame (prefixBytes n)
  | .frameSuffix c => .frame (suffixBytes c)

/-- The `k` bytes of a pattern the table reads as one number, the most significant byte at the lowest index (R44,
R79). -/
def tableBytes : Nat → Nat → List Byte
  | 0, _ => []
  | k + 1, w => BitVec.ofNat 8 (w >>> (8 * k)) :: tableBytes k w

/-- The code a table row's `nbits` bits `w` stand for. A row of `OP` fills one byte, of which the block has bits 1 and
0 alone; the wire-frame rows are 40 and 16 bits (assumption 10). -/
def tableCode (nbits w : Nat) : Code :=
  if nbits ≤ 8 then .op (BitVec.ofNat 2 w) else .frame (tableBytes (nbits / 8) w)

/-- The instruction the decoder reads from a table row's bits. -/
def decodeTableWord (nbits w : Nat) : Option Instr :=
  match decode (tableCode nbits w) with
  | .ok i => some i
  | .error _ => none

end Sys2Proof
end

