-- ==== Sys2Proof/Machine/Fetch.lean ====
section
/-!
DEFINITION. What the next step runs. The block fetches no instructions (spec/10_state.md R22); a pending request selects
its operation by `OP` (spec/30_encoding.md R74, R75). Where a SCAN is in progress with its cursor at a wire-frame
pattern, the pattern's row is what runs (R79, assumptions 7 and 8).
-/

namespace Sys2Proof.Machine

/-- The payload has been taken and the cursor stands at the suffix. -/
def Work.takenPayload : Work → Bool
  | ⟨some _, some _, some _, some _, some _⟩ => true
  | _ => false

/-- How many bytes the pattern at the cursor has (R62, R64). -/
def patternLength (w : Work) : Nat := if w.takenPayload then 2 else 5

/-- The wire-frame pattern that stands in `IN` at the cursor of a SCAN in progress, if one does. -/
def patternAtCursor (r : Request) (w : Work) : Option Instr :=
  match w.pos with
  | none => none
  | some pos =>
    match memRead r pos (patternLength w) with
    | .error _ => none
    | .ok bytes =>
      match decode (.frame bytes) with
      | .ok i => some i
      | .error _ => none

/-- The instruction the pending request runs next (R75, R79); `OP = 00` is refused (R76). -/
def fetch (r : Request) (w : Work) : Except Refusal Instr :=
  match decode (.op r.op) with
  | .error _ => .error .reservedOp
  | .ok .scan => .ok ((patternAtCursor r w).getD .scan)
  | .ok i => .ok i

/-- The request a placed code goes into: the pending one, or one whose `IN` is empty. -/
def requestForCode (s : State) : Request :=
  match s.requests with
  | r :: _ => r
  | [] => ⟨0, [], 0, 0⟩

/-- The request with `bytes` standing in its `IN` at `pos`, long enough to hold them, selecting SCAN. -/
def withPattern (r : Request) (pos : Nat) (bytes : List Byte) : Request :=
  { r with op := opScan, input := memWrite r.input pos bytes, inLen := max r.inLen (pos + bytes.length) }

/-- The state whose next step runs a code: an `OP` in the pending request, with no operation in progress; a prefix at
the cursor of a SCAN in progress; a suffix behind the payload such a SCAN has taken, or, where none has, behind the
one-byte payload `00` (assumption 11). -/
def placeCode (s : State) : Code → State
  | .op v => { s with resetIn := false, requests := [{ requestForCode s with op := v }], work := Work.idle }
  | .frame bytes =>
    let r := requestForCode s
    if bytes.length = 2 then
      match s.work.takenPayload, s.work.pos with
      | true, some pos => { s with resetIn := false, requests := [withPattern r pos bytes] }
      | _, _ =>
        { s with
          resetIn := false
          requests := [⟨opScan, Memory.ofBytes (prefixBytes 1 ++ [0x00] ++ bytes), 8, 0⟩]
          work := Work.atSuffix 0 1 [0x00] 0x00 }
    else
      let pos := s.work.pos.getD r.offset
      { s with
        resetIn := false
        requests := [withPattern r pos bytes]
        work := ⟨some pos, none, none, none, none⟩ }

end Sys2Proof.Machine
end

