-- ==== Sys2Proof/Machine/Step.lean ====
section
/-!
DEFINITION. One step of the block: one whole operation, request in, response out (spec/10_state.md R23).
-/

namespace Sys2Proof.Machine

/-- One step. Reset makes the block idle, and a request then pending gets no response (R170, R171). With no request
pending the block stays idle (assumption 3). One pending request is served (R23). Two are refused: one was issued
before the previous response (R174, U4). -/
def step (s : State) : Host.Outcome State Fault Refusal :=
  if s.resetIn then .next State.reset
  else
    match s.requests with
    | [] => .next { s with response := none, work := Work.idle }
    | [r] =>
      match fetch r s.work with
      | .ok i => exec i s
      | .error e => .refused e
    | _ :: _ :: _ => .refused .requestOverlap

/-- The state in which the very next step runs the instruction of a table row's bits (assumption 11). -/
def State.withFetchWord (s : State) (nbits w : Nat) : State := placeCode s (tableCode nbits w)

end Sys2Proof.Machine
end

