-- ==== Sys2Proof/Config.lean ====
section
/-!
DEFINITION. The parameter the spec leaves open (spec/00_scope.md R7, spec/92_eei_decisions.md D3): `IDX_W`, a natural
number of at least 8. Nothing in the step reads it; the well-formedness of a request does (assumption 5).
-/

namespace Sys2Proof

/-- How far `IDX_W` exceeds its least value 8. No body: any natural number is possible (R7). -/
opaque Config.idxExtra : Nat

/-- `IDX_W`, the width in bits of every index and length of the interface (R7: OPEN, at least 8). -/
def Config.idxW : Nat := 8 + Config.idxExtra

/-- `BUF_MAX = 2^IDX_W − 1`, the largest `IN_LEN` a request can carry (R7). -/
def Config.bufMax : Nat := 2 ^ Config.idxW - 1

end Sys2Proof
end

