-- ==== Sys2Proof/Machine/Flags.lean ====
section
/-!
DEFINITION. `STATUS`, the block's only flag-like state (spec/10_state.md R26): its 4-bit codes (spec/60_exceptions.md
R141), and the class of a failure, a reading aid for the host (R144, R152).
-/

namespace Sys2Proof.Machine

/-- The code of a failure (R141). `EmptyPayload` of ENC and of SCAN share one (R26). -/
def failureCode : Failure → BitVec 4
  | .encode .emptyPayload => 0x1
  | .encode .payloadTooLarge => 0x2
  | .decode .offsetOutOfRange => 0x3
  | .decode .bufferTooShort => 0x4
  | .decode .headerNotFound => 0x5
  | .decode .truncatedLengthOrMarker => 0x6
  | .decode .missingLengthFlag => 0x7
  | .decode .emptyPayload => 0x1
  | .decode .missingMarker => 0x8
  | .decode .truncatedPayload => 0x9
  | .decode .checksumMismatch => 0xA
  | .decode .missingFooter => 0xB
  | .csum .emptyInput => 0xC

/-- The 4-bit code of `STATUS` (R25, R141). -/
def statusCode : Status → BitVec 4
  | .ok => 0x0
  | .failed f => failureCode f

/-- The three causes the source sorts errors into (R144). -/
inductive FailureClass where
  /-- (a) malformed input to ENC. -/
  | malformedInput
  /-- (b) buffer exhaustion: more bytes may help. -/
  | exhaustion
  /-- (c) structural or semantic mismatch. -/
  | mismatch
deriving DecidableEq, Repr

/-- The class of a failure (R144); `EmptyInput` has none. -/
def failureClass : Failure → Option FailureClass
  | .encode .emptyPayload => some .malformedInput
  | .encode .payloadTooLarge => some .malformedInput
  | .decode .bufferTooShort => some .exhaustion
  | .decode .truncatedLengthOrMarker => some .exhaustion
  | .decode .truncatedPayload => some .exhaustion
  | .decode .offsetOutOfRange => some .exhaustion
  | .decode .headerNotFound => some .exhaustion
  | .decode .missingLengthFlag => some .mismatch
  | .decode .missingMarker => some .mismatch
  | .decode .checksumMismatch => some .mismatch
  | .decode .missingFooter => some .mismatch
  | .decode .emptyPayload => some .mismatch
  | .csum .emptyInput => none

end Sys2Proof.Machine
end

