-- ==== Sys2Proof/Machine/HostPort.lean ====
section
/-!
DEFINITION. What the host can do to the block between its steps (spec/10_state.md R23 to R25, spec/70_reset_and_hazards.md
R170 to R177): issue a request, apply reset, read a response field; and the two ways on the spec gives the host after
a success and after a failure.
-/

namespace Sys2Proof.Machine

/-- The host issues a request (R24, R174). -/
def issue (s : State) (r : Request) : State := { s with requests := s.requests ++ [r] }

/-- The host applies reset (R170, R171). -/
def applyReset (s : State) : State := { s with resetIn := true }

/-- The response fields by name (R25). -/
inductive Field where
  | status
  | out
  | outLen
  | hdrIdx
  | endIdx
  | csum
deriving DecidableEq, Repr

/-- What a response field holds: a code, a byte sequence, an index or length, a byte (R25). -/
inductive FieldValue where
  | code (c : BitVec 4)
  | bytes (m : Memory)
  | index (n : Nat)
  | byte (b : Byte)
deriving DecidableEq, Repr

/-- The value of a response field, if it has one (R25). -/
def Response.field (x : Response) : Field → Option FieldValue
  | .status => some (.code (statusCode x.status))
  | .out => x.out.map .bytes
  | .outLen => x.outLen.map .index
  | .hdrIdx => x.hdrIdx.map .index
  | .endIdx => x.endIdx.map .index
  | .csum => x.csum.map .byte

/-- The host reads a response field. Reading one that has no value is a fault of the host's program (R25, R175, U2),
and so is reading any field when no response has been delivered (R32). -/
def readField (s : State) (f : Field) : Except Fault FieldValue :=
  match s.response.bind fun x => x.field f with
  | some v => .ok v
  | none => .error .absentField

/-- Where the host scans on after a success: `END_IDX` is inclusive (R176). -/
def nextOffset (endIdx : Nat) : Nat := endIdx + 1

/-- Where the host scans on after a failure behind a header: it searches `IN` itself for the header SCAN found and
starts one past it (R177). -/
def retryOffset (r : Request) : Except Stop Nat := do
  let h ← findHeader r (r.inLen - 1 - r.offset) r.offset
  .ok (h + 1)

end Sys2Proof.Machine
end

