-- ==== Sys2Proof/Safety.lean ====
section
/-!
DEFINITION. The terms claims about the block are stated in: well-formed requests, responses and states; header pairs
and frames as byte lists, written with the numerals of spec/00_scope.md R6 and not with the model's constants; what an
operation answers; and the host that issues requests one after another (spec/70_reset_and_hazards.md R174).
-/

namespace Sys2Proof.Machine

/-- A request the interface can carry (R7, R24, U6): `IN` is a sequence of `IN_LEN` bytes, and the numbers fit
`IDX_W` bits. -/
structure RequestOk (r : Request) : Prop where
  filled : r.input.filled r.inLen
  inLen_le : r.inLen ≤ Config.bufMax
  offset_lt : r.offset < 2 ^ Config.idxW

/-- A response with the fields R25 lists for its status and for some operation, and no others: after a failure `STATUS`
alone; after ENC the frame; after SCAN the payload and the two positions; after CSUM the byte. -/
def ResponseOk (x : Response) : Prop :=
  match x.status with
  | .failed _ => x.out = none ∧ x.outLen = none ∧ x.hdrIdx = none ∧ x.endIdx = none ∧ x.csum = none
  | .ok =>
    (∃ m n, x = ⟨.ok, some m, some n, none, none, none⟩ ∧ m.filled n ∧ 8 ≤ n ∧ n ≤ 134) ∨
    (∃ m n h, x = ⟨.ok, some m, some n, some h, some (h + 6 + n), none⟩ ∧ m.filled n ∧ 1 ≤ n ∧ n ≤ 32767 ∧
      h + 6 + n < Config.bufMax) ∨
    (∃ c, x = ⟨.ok, none, none, none, none, some c⟩)

/-- Working values that belong to the request `r` (R27): none at all; or, inside a SCAN, the cursor alone; or all of
them, `P` being the `N` bytes after the marker of a header at `h`, `acc` its checksum, and the frame within `IN`. -/
def WorkOk (r : Request) (w : Work) : Prop :=
  w = Work.idle ∨
  (r.op = 0b10 ∧
    ((∃ pos, w = ⟨some pos, none, none, none, none⟩ ∧ r.offset ≤ pos ∧ pos < r.inLen) ∨
     (∃ h n p acc, w = ⟨some (h + 5 + n), some h, some n, some p, some acc⟩ ∧ r.offset ≤ h ∧ 1 ≤ n ∧ n ≤ 32767 ∧
       h + 6 + n < r.inLen ∧ memRead r (h + 5) n = .ok p ∧ csumOf p = .ok acc)))

/-- The invariant of the interface and the block: every pending request and the delivered response are well-formed,
and working values exist only inside the operation they belong to (R20, R25, R27, R32). -/
structure Inv (s : State) : Prop where
  requests : ∀ r ∈ s.requests, RequestOk r
  response : ∀ x, s.response = some x → ResponseOk x
  idle : s.requests = [] → s.work = Work.idle
  work : ∀ r, s.requests = [r] → WorkOk r s.work

/-- A request whose `IN` is a byte list (R9, R24). Every request the interface can carry is one: `eq_requestOf` in
`Laws/Operands.lean`. -/
def requestOf (op : BitVec 2) (bs : List Byte) (off : Nat) : Request := ⟨op, Memory.ofBytes bs, bs.length, off⟩

/-- The exclusive-or of all bytes of a list. -/
def xorSum (bs : List Byte) : Byte := bs.foldl (· ^^^ ·) 0

/-- The frame of a payload, field by field (R60): header, length, marker, payload, checksum, footer. -/
def wireFrame (p : List Byte) : List Byte :=
  [0xA5, 0x5A, 0x80 ||| BitVec.ofNat 8 (p.length / 256), BitVec.ofNat 8 (p.length % 256), 0xA0] ++ p ++
    [xorSum p, 0x04]

/-- A header pair at index `i` (R70). -/
def HeaderPair (bs : List Byte) (i : Nat) : Prop := bs[i]? = some 0xA5 ∧ bs[i + 1]? = some 0x5A

/-- The header index: the least index from `off` on with a header pair (R102). -/
def FirstHeader (bs : List Byte) (off h : Nat) : Prop :=
  off ≤ h ∧ HeaderPair bs h ∧ ∀ i, off ≤ i → i < h → ¬ HeaderPair bs i

/-- SCAN's steps 1 to 3 pass and find the header at `h` (R101 to R103). -/
def HeaderPassed (bs : List Byte) (off h : Nat) : Prop :=
  off + 8 ≤ bs.length ∧ FirstHeader bs off h ∧ h + 5 ≤ bs.length

/-- SCAN's steps 1 to 5 pass: behind the header at `h` stand the flag, the length `n`, which is not zero, and the
marker (R101 to R107). -/
def PrefixPassed (bs : List Byte) (off h n : Nat) : Prop :=
  HeaderPassed bs off h ∧
  ∃ b2 b3 : Byte, bs[h + 2]? = some b2 ∧ bs[h + 3]? = some b3 ∧ b2 &&& 0x80 ≠ 0 ∧
    n = b2.toNat % 128 * 256 + b3.toNat ∧ n ≠ 0 ∧ bs[h + 4]? = some 0xA0

/-- The response of a failure: `STATUS` alone (R25, R150). -/
def failedWith (f : Failure) : Response := ⟨.failed f, none, none, none, none, none⟩

/-- The state in which the pending operation has ended with the response `x`: the request is answered, no working value
is left, the reset input is as it was. -/
def answered (s : State) (x : Response) : State := ⟨s.resetIn, [], some x, Work.idle⟩

/-- ENC on the payload `p` completes with the response `x`, whatever else the request and the state hold. -/
def EncGives (p : List Byte) (x : Response) : Prop :=
  ∀ s op off, s.requests = [requestOf op p off] → exec .enc s = .next (answered s x)

/-- SCAN on the buffer `bs` from `off` completes with the response `x`, whatever else the state holds. -/
def ScanGives (bs : List Byte) (off : Nat) (x : Response) : Prop :=
  ∀ s op, s.requests = [requestOf op bs off] → s.work = Work.idle → exec .scan s = .next (answered s x)

/-- SCAN on `bs` from `off` completes with the failure `e`. -/
def ScanFails (bs : List Byte) (off : Nat) (e : DecodeError) : Prop := ScanGives bs off (failedWith (.decode e))

/-- SCAN on `bs` from `off` completes with the payload `p` of a frame whose header stands at `h` (R112). -/
def ScanFinds (bs : List Byte) (off : Nat) (p : List Byte) (h : Nat) : Prop :=
  ScanGives bs off ⟨.ok, some (Memory.ofBytes p), some p.length, some h, some (h + 6 + p.length), none⟩

/-- CSUM on the bytes `bs` completes with the response `x`, whatever else the request and the state hold. -/
def CsumGives (bs : List Byte) (x : Response) : Prop :=
  ∀ s op off, s.requests = [requestOf op bs off] → exec .csum s = .next (answered s x)

/-- The host issues one request and receives its response (R23, R174). -/
def serve (s : State) (r : Request) : Option (State × Response) :=
  match step (issue s r) with
  | .next t => t.response.map fun x => (t, x)
  | .fault _ => none
  | .refused _ => none

/-- The host issues requests one after another, each after the response to the one before (R174). -/
def serveAll (s : State) : List Request → Option (List Response)
  | [] => some []
  | r :: rs =>
    match serve s r with
    | none => none
    | some (t, x) => (serveAll t rs).map (x :: ·)

/-- What a step answered, if it answered a next state. -/
def nextOf (o : Host.Outcome State Fault Refusal) : Option State :=
  match o with
  | .next s => some s
  | .fault _ => none
  | .refused _ => none

end Sys2Proof.Machine
end

