-- ==== Sys2Proof/Certificates/Slice0/Obligations.lean ====
section
/-!
DEFINITION. The statements about the model, for the provers. Bytes and indices are the numerals of the spec's rules.
-/

open Sys2Proof Sys2Proof.Machine

/-! ### Encodings -/

/-- The codes of the three operations are this spec's own (spec/92_eei_decisions.md D4); the frame patterns are those of
R62 and R64, the second prefix the largest length, the suffix that of the source's literal scenario. -/
def Obligations.SpecCodesDecode : Prop :=
  decode (.op 0b01) = .ok .enc ∧ decode (.op 0b10) = .ok .scan ∧ decode (.op 0b11) = .ok .csum ∧
  decode (.op 0b00) = .error .reservedOp ∧
  decode (.frame [0xA5, 0x5A, 0x80, 0x04, 0xA0]) = .ok (.framePrefix 4) ∧
  decode (.frame [0xA5, 0x5A, 0xFF, 0xFF, 0xA0]) = .ok (.framePrefix 32767) ∧
  decode (.frame [0x44, 0x04]) = .ok (.frameSuffix 0x44)

/-- Decoding the code of a well-formed instruction gives it back. -/
def Obligations.DecodeOfEncodeIsIdentity : Prop :=
  ∀ i : Instr, i.wf = true → decode (encode i) = .ok i

/-- A code that decodes is the code of the well-formed instruction it decodes to: each code has one meaning, and no bit
of it is dropped. -/
def Obligations.EncodeOfDecodeIsIdentity : Prop :=
  ∀ (c : Code) (i : Instr), decode c = .ok i → i.wf = true ∧ encode i = c

/-- Five bytes are a frame prefix exactly when the header, the flag bit and the marker stand in them, and then the
length is seven bits of the third byte above the fourth (R62, R63, R66, R70). -/
def Obligations.PrefixPatternExact : Prop :=
  ∀ (b0 b1 b2 b3 b4 : Byte) (n : Nat),
    decode (.frame [b0, b1, b2, b3, b4]) = .ok (.framePrefix n) ↔
      b0 = 0xA5 ∧ b1 = 0x5A ∧ b2 &&& 0x80 ≠ 0 ∧ n = b2.toNat % 128 * 256 + b3.toNat ∧ b4 = 0xA0

/-- Two bytes are a frame suffix exactly when the second is the footer; the first is the checksum (R64, R70). -/
def Obligations.SuffixPatternExact : Prop :=
  ∀ b0 b1 c : Byte, decode (.frame [b0, b1]) = .ok (.frameSuffix c) ↔ b1 = 0x04 ∧ c = b0

/-! ### The step -/

/-- With one request pending and no operation in progress, a step is the operation `OP` selects (R23, R75). -/
def Obligations.StepRunsSelectedOperation : Prop :=
  ∀ (s : State) (r : Request) (i : Instr),
    s.resetIn = false → s.requests = [r] → s.work.pos = none → decode (.op r.op) = .ok i → step s = exec i s

/-- With a SCAN in progress, a step is the wire-frame pattern that stands at the cursor: a prefix while no payload has
been taken, then a suffix; where the pattern does not stand there, it is what is left of SCAN. The model's own
(assumptions 7 and 8; R79). -/
def Obligations.StepRunsPatternAtCursor : Prop :=
  ∀ (s : State) (r : Request) (pos : Nat),
    s.resetIn = false → s.requests = [r] → r.op = 0b10 → s.work.pos = some pos →
    (∀ bytes i, memRead r pos (if s.work.takenPayload then 2 else 5) = .ok bytes → decode (.frame bytes) = .ok i →
      step s = exec i s) ∧
    ((∀ bytes i, memRead r pos (if s.work.takenPayload then 2 else 5) = .ok bytes → decode (.frame bytes) ≠ .ok i) →
      step s = exec .scan s)

/-- A table word that decodes, placed where the next step looks, is what that step runs. The model's own (assumption
11). -/
def Obligations.PlacedWordRunsNext : Prop :=
  ∀ (s : State) (nbits w : Nat) (i : Instr),
    decodeTableWord nbits w = some i → step (s.withFetchWord nbits w) = exec i (s.withFetchWord nbits w)

/-- A request with the reserved code is refused, and yields no response (R76, D4, U3). -/
def Obligations.ReservedOpRefused : Prop :=
  ∀ (s : State) (r : Request),
    s.resetIn = false → s.requests = [r] → r.op = 0b00 → step s = .refused .reservedOp

/-- A request issued before the previous response is refused (R174, D16, U4). -/
def Obligations.OverlappingRequestRefused : Prop :=
  ∀ (s : State) (r : Request), s.resetIn = false → s.requests ≠ [] → step (issue s r) = .refused .requestOverlap

/-- Reset makes the block idle, and a request then pending gets no response (R170, R171, D14, U8). -/
def Obligations.ResetAbandonsPendingOperation : Prop :=
  ∀ s : State, ∃ t, step (applyReset s) = .next t ∧
    t.resetIn = false ∧ t.requests = [] ∧ t.response = none ∧ t.work = ⟨none, none, none, none, none⟩

/-- After reset no request is held, no response exists and no working value has a value (R32, D14). -/
def Obligations.ResetStateIsIdle : Prop :=
  State.reset.requests = [] ∧ State.reset.response = none ∧
  State.reset.work = ⟨none, none, none, none, none⟩ ∧ State.reset.resetIn = false

/-- With no request pending the block stays idle and delivers nothing. The model's own (assumptions 2 and 3). -/
def Obligations.IdleStepDeliversNothing : Prop :=
  ∀ s : State, s.resetIn = false → s.requests = [] →
    ∃ t, step s = .next t ∧ t.resetIn = false ∧ t.requests = [] ∧ t.response = none ∧ t.work = Work.idle

/-- What a step answers depends on the request alone, and nothing of the operation is left after it (R20): two states
with the same request pending, whatever response each holds, go to the same state. -/
def Obligations.ResponseDependsOnRequestAlone : Prop :=
  ∀ (s t u : State) (r : Request),
    s.resetIn = false → t.resetIn = false → s.requests = [r] → t.requests = [r] →
    s.work = Work.idle → t.work = Work.idle → step s = .next u →
    step t = .next u ∧ u.requests = [] ∧ u.work = ⟨none, none, none, none, none⟩

/-- Requests issued one after another are answered in order, each as if it were the first after reset (R20, R170,
R174). -/
def Obligations.RequestsAnsweredInOrder : Prop :=
  ∀ rs : List Request, (∀ r ∈ rs, RequestOk r ∧ r.op ≠ 0b00) →
    ∃ xs : List Response, serveAll State.reset rs = some xs ∧ xs.length = rs.length ∧
      ∀ (i : Nat) (r : Request) (x : Response), rs[i]? = some r → xs[i]? = some x → ∃ t, serve State.reset r = some (t, x)

/-! ### ENC -/

/-- ENC (R90): the empty payload and a payload of more than 127 bytes fail; any other payload gives its frame. `OFFSET`
is ignored. -/
def Obligations.EncProducesFrame : Prop :=
  (EncGives [] (failedWith (.encode .emptyPayload))) ∧
  (∀ p : List Byte, 127 < p.length → EncGives p (failedWith (.encode .payloadTooLarge))) ∧
  (∀ p : List Byte, 1 ≤ p.length → p.length ≤ 127 →
    EncGives p ⟨.ok, some (Memory.ofBytes (wireFrame p)), some (p.length + 7), none, none, none⟩)

/-- The fields of ENC's frame stand at the indices of R49, no index from `N + 7` on holds a byte, and payload and
checksum byte together XOR to zero (R94). -/
def Obligations.EncFrameLayout : Prop :=
  ∀ (s : State) (op : BitVec 2) (off : Nat) (p : List Byte),
    s.requests = [requestOf op p off] → 1 ≤ p.length → p.length ≤ 127 →
    ∃ m, exec .enc s = .next (answered s ⟨.ok, some m, some (p.length + 7), none, none, none⟩) ∧ m.wf ∧
      m.read 0 = some 0xA5 ∧ m.read 1 = some 0x5A ∧ m.read 2 = some 0x80 ∧
      m.read 3 = some (BitVec.ofNat 8 p.length) ∧ m.read 4 = some 0xA0 ∧
      (∀ i, i < p.length → m.read (5 + i) = p[i]?) ∧
      (∃ c, m.read (5 + p.length) = some c ∧ xorSum p ^^^ c = 0) ∧
      m.read (6 + p.length) = some 0x04 ∧
      ∀ a, p.length + 7 ≤ a → m.read a = none

/-- Different payloads give different frames (R94). -/
def Obligations.EncIsInjective : Prop :=
  ∀ (p q : List Byte) (x : Response), EncGives p x → EncGives q x → x.status = .ok → p = q

/-- Scanning the frame ENC returned, from offset 0, gives the payload back with header index 0 and end index `N + 6`
(R95): one request after the other on one instance. -/
def Obligations.EncodeThenScanGivesPayload : Prop :=
  ∀ (s : State) (p : List Byte) (off : Nat),
    s.resetIn = false → s.requests = [] → s.work = Work.idle → 1 ≤ p.length → p.length ≤ 127 →
    ∃ t m n u, step (issue s (requestOf 0b01 p off)) = .next t ∧
      t.response = some ⟨.ok, some m, some n, none, none, none⟩ ∧
      step (issue t ⟨0b10, m, n, 0⟩) = .next u ∧
      u.response = some ⟨.ok, some (Memory.ofBytes p), some p.length, some 0, some (p.length + 6), none⟩

/-! ### SCAN, step by step -/

/-- Step 1 (R101): first the offset, then the count of bytes from it to the end. -/
def Obligations.ScanBoundsPrecheck : Prop :=
  ∀ (bs : List Byte) (off : Nat),
    (ScanFails bs off .offsetOutOfRange ↔ bs.length ≤ off) ∧
    (off < bs.length → (ScanFails bs off .bufferTooShort ↔ bs.length - off ≤ 7))

/-- Step 2 (R102, D8): the header index is the least index from `OFFSET` on with a header pair; where there is none, the
operation fails. -/
def Obligations.ScanSearchesFirstHeader : Prop :=
  ∀ (bs : List Byte) (off : Nat), off + 8 ≤ bs.length →
    (ScanFails bs off .headerNotFound ↔ ∀ i, off ≤ i → ¬ HeaderPair bs i) ∧
    ∀ op h, findHeader (requestOf op bs off) (bs.length - 1 - off) off = .ok h ↔ FirstHeader bs off h

/-- Step 3 (R103): after the header, fewer than three bytes are left. -/
def Obligations.ScanTruncatedLengthOrMarker : Prop :=
  ∀ (bs : List Byte) (off h : Nat), off + 8 ≤ bs.length → FirstHeader bs off h →
    (ScanFails bs off .truncatedLengthOrMarker ↔ bs.length - (h + 2) < 3)

/-- Step 4, first part (R104): the flag bit, whatever stands behind it. -/
def Obligations.ScanMissingLengthFlag : Prop :=
  ∀ (bs : List Byte) (off h : Nat) (b2 : Byte), HeaderPassed bs off h → bs[h + 2]? = some b2 →
    (ScanFails bs off .missingLengthFlag ↔ b2 &&& 0x80 = 0)

/-- Step 4, third part (R106): the zero length, exactly the length bytes `80 00`, before the marker is tested. -/
def Obligations.ScanZeroLength : Prop :=
  ∀ (bs : List Byte) (off h : Nat) (b2 b3 : Byte), HeaderPassed bs off h → bs[h + 2]? = some b2 →
    bs[h + 3]? = some b3 → b2 &&& 0x80 ≠ 0 →
    (ScanFails bs off .emptyPayload ↔ b2 = 0x80 ∧ b3 = 0x00)

/-- Step 5 (R107): the marker, before the payload bounds are tested. -/
def Obligations.ScanMissingMarker : Prop :=
  ∀ (bs : List Byte) (off h : Nat) (b2 b3 b4 : Byte), HeaderPassed bs off h → bs[h + 2]? = some b2 →
    bs[h + 3]? = some b3 → bs[h + 4]? = some b4 → b2 &&& 0x80 ≠ 0 → b2.toNat % 128 * 256 + b3.toNat ≠ 0 →
    (ScanFails bs off .missingMarker ↔ b4 ≠ 0xA0)

/-- Step 6 (R108): marker, payload, checksum and footer must fit, counted from the marker's index. -/
def Obligations.ScanTruncatedPayload : Prop :=
  ∀ (bs : List Byte) (off h n : Nat), PrefixPassed bs off h n →
    (ScanFails bs off .truncatedPayload ↔ bs.length - (h + 4) < n + 3)

/-- Step 8 (R110): the exclusive-or of the payload and the byte after it, before the footer is tested. -/
def Obligations.ScanChecksumMismatch : Prop :=
  ∀ (bs : List Byte) (off h n : Nat) (c : Byte), PrefixPassed bs off h n → n + 3 ≤ bs.length - (h + 4) →
    bs[h + 5 + n]? = some c →
    (ScanFails bs off .checksumMismatch ↔ xorSum ((bs.drop (h + 5)).take n) ^^^ c ≠ 0)

/-- Step 9 (R111): the footer, compared as a whole byte. -/
def Obligations.ScanMissingFooter : Prop :=
  ∀ (bs : List Byte) (off h n : Nat) (c f : Byte), PrefixPassed bs off h n → n + 3 ≤ bs.length - (h + 4) →
    bs[h + 5 + n]? = some c → xorSum ((bs.drop (h + 5)).take n) ^^^ c = 0 → bs[h + 6 + n]? = some f →
    (ScanFails bs off .missingFooter ↔ f ≠ 0x04)

/-- Step 10 (R105, R109, R112): all tests passed, SCAN completes with the payload bytes, `N`, the header index and the
index of the footer byte, all counted from the start of the buffer. -/
def Obligations.ScanSucceeds : Prop :=
  ∀ (s : State) (op : BitVec 2) (bs : List Byte) (off h n : Nat) (c : Byte),
    s.requests = [requestOf op bs off] → s.work = Work.idle →
    PrefixPassed bs off h n → n + 3 ≤ bs.length - (h + 4) → bs[h + 5 + n]? = some c →
    xorSum ((bs.drop (h + 5)).take n) ^^^ c = 0 → bs[h + 6 + n]? = some 0x04 →
    exec .scan s = .next (answered s
      ⟨.ok, some (Memory.ofBytes ((bs.drop (h + 5)).take n)), some n, some h, some (h + 6 + n), none⟩)

/-! ### SCAN as a whole -/

/-- SCAN completes with a payload at a header index exactly when the frame of that payload stands there and no header
pair stands between the offset and it (R100, R113, R118). -/
def Obligations.ScanFindsExactlyFrames : Prop :=
  ∀ (bs : List Byte) (off : Nat) (p : List Byte) (h : Nat),
    ScanFinds bs off p h ↔
      off ≤ h ∧ (∀ i, off ≤ i → i < h → ¬ HeaderPair bs i) ∧ 1 ≤ p.length ∧ p.length ≤ 32767 ∧
      ∃ front back, bs = front ++ wireFrame p ++ back ∧ front.length = h

/-- A success and a failure of class (c) are final: bytes appended to the buffer, a valid frame among them, change
neither (R113, R114 b, R144). -/
def Obligations.AppendedBytesChangeNoFinalAnswer : Prop :=
  ∀ (bs more : List Byte) (off : Nat) (x : Response), ScanGives bs off x →
    (x.status = .ok ∨ ∃ f, x.status = .failed f ∧ failureClass f = some .mismatch) →
    ScanGives (bs ++ more) off x

/-- Every offset up to the header found, with eight bytes or more behind it, gives the same response (R114 a). -/
def Obligations.OffsetBeforeHeaderGivesSameAnswer : Prop :=
  ∀ (bs : List Byte) (off off' h : Nat) (x : Response), FirstHeader bs off h → off ≤ off' → off' ≤ h →
    off' + 8 ≤ bs.length → (ScanGives bs off x ↔ ScanGives bs off' x)

/-- A frame is found behind any noise without a header pair and before any bytes, whatever stands below the offset
(R115, R176, `90_conflicts.md` C4). -/
def Obligations.ScanToleratesNoise : Prop :=
  ∀ below noise p after : List Byte, (∀ i, ¬ HeaderPair noise i) → 1 ≤ p.length → p.length ≤ 32767 →
    ScanFinds (below ++ noise ++ wireFrame p ++ after) below.length p (below.length + noise.length)

/-- A frame cut to its first `k` bytes, alone in the buffer (R116, `90_conflicts.md` C5). -/
def Obligations.ScanOfCutFrame : Prop :=
  ∀ (p : List Byte) (k : Nat), 1 ≤ p.length → p.length ≤ 32767 → k < p.length + 7 →
    ScanFails ((wireFrame p).take k) 0
      (if k = 0 then .offsetOutOfRange else if k ≤ 7 then .bufferTooShort else .truncatedPayload)

/-- A single bit flipped in the payload of a valid frame, the checksum byte untouched, is detected (R110). -/
def Obligations.PayloadBitFlipDetected : Prop :=
  ∀ (p after : List Byte) (i k : Nat) (b : Byte), 1 ≤ p.length → p.length ≤ 32767 → p[i]? = some b → k < 8 →
    ScanFails ((wireFrame p).set (5 + i) (b ^^^ (1#8 <<< k)) ++ after) 0 .checksumMismatch

/-- The payload SCAN returns has 1 to 32767 bytes and its frame lies in the buffer, from the header index to the
inclusive end index (R112, R118). -/
def Obligations.ScanPayloadWithinBounds : Prop :=
  ∀ (bs : List Byte) (off : Nat) (p : List Byte) (h : Nat), ScanFinds bs off p h →
    1 ≤ p.length ∧ p.length ≤ 32767 ∧ p.length + 7 ≤ bs.length ∧
    bs[h]? = some 0xA5 ∧ bs[h + 6 + p.length]? = some 0x04 ∧ (bs.drop (h + 5)).take p.length = p

/-- The host's way past a failed header (R177): its own search finds the header SCAN found, and no header begins one
past it, so one past and two past it give the same response while eight bytes are left. -/
def Obligations.RetryPassesFailedHeader : Prop :=
  ∀ (op : BitVec 2) (bs : List Byte) (off h : Nat), FirstHeader bs off h →
    retryOffset (requestOf op bs off) = .ok (h + 1) ∧ ¬ HeaderPair bs (h + 1) ∧
    ∀ x, h + 2 + 8 ≤ bs.length → (ScanGives bs (h + 1) x ↔ ScanGives bs (h + 2) x)

/-- `END_IDX` is inclusive (R176): after a success the next offset is out of range when the frame ended the buffer, and
gives `BufferTooShort` when one to seven bytes follow. -/
def Obligations.NextOffsetAfterSuccess : Prop :=
  ∀ (bs : List Byte) (off : Nat) (p : List Byte) (h : Nat), ScanFinds bs off p h →
    (bs.length = h + 7 + p.length → ScanFails bs (nextOffset (h + 6 + p.length)) .offsetOutOfRange) ∧
    (h + 7 + p.length < bs.length → bs.length ≤ h + 14 + p.length →
      ScanFails bs (nextOffset (h + 6 + p.length)) .bufferTooShort)

/-! ### CSUM -/

/-- CSUM (R130): the first byte, each further byte folded in by exclusive-or; any length from 1 on. `OFFSET` is
ignored. -/
def Obligations.CsumReducesByXor : Prop :=
  ∀ (s : State) (op : BitVec 2) (off : Nat) (b : Byte) (bs : List Byte),
    s.requests = [requestOf op (b :: bs) off] →
    exec .csum s = .next (answered s
      ⟨.ok, none, none, none, none, some (bs.foldl (fun acc c => acc ^^^ c) b)⟩)

/-- The empty sequence has no checksum: `EmptyInput`, and `CSUM` has no value (R131, D9, U1). -/
def Obligations.CsumOfEmptyFails : Prop :=
  CsumGives [] (failedWith (.csum .emptyInput))

/-- Bit `k` of the checksum is 1 exactly when an odd number of bytes have bit `k` set (R132). -/
def Obligations.CsumBitIsParity : Prop :=
  ∀ (bs : List Byte) (c : Byte) (k : Nat), CsumGives bs ⟨.ok, none, none, none, none, some c⟩ →
    (c.getLsbD k = true ↔ bs.countP (fun b => b.getLsbD k) % 2 = 1)

/-- The order of the bytes does not matter (R132). -/
def Obligations.CsumIgnoresOrder : Prop :=
  ∀ (bs cs : List Byte) (x : Response), bs.Perm cs → CsumGives bs x → CsumGives cs x

/-- A sequence followed by its own checksum reduces to zero (R69, R132). -/
def Obligations.CsumWithOwnChecksumIsZero : Prop :=
  ∀ (bs : List Byte) (c : Byte), CsumGives bs ⟨.ok, none, none, none, none, some c⟩ →
    CsumGives (bs ++ [c]) ⟨.ok, none, none, none, none, some 0x00⟩

/-! ### STATUS and the response -/

/-- The codes of `STATUS`, this spec's own (R141, D5): the thirteen of the table, `0xD` to `0xF` never. -/
def Obligations.StatusCodesOfTable : Prop :=
  statusCode .ok = 0x0 ∧ statusCode (.failed (.encode .emptyPayload)) = 0x1 ∧
  statusCode (.failed (.decode .emptyPayload)) = 0x1 ∧ statusCode (.failed (.encode .payloadTooLarge)) = 0x2 ∧
  statusCode (.failed (.decode .offsetOutOfRange)) = 0x3 ∧ statusCode (.failed (.decode .bufferTooShort)) = 0x4 ∧
  statusCode (.failed (.decode .headerNotFound)) = 0x5 ∧
  statusCode (.failed (.decode .truncatedLengthOrMarker)) = 0x6 ∧
  statusCode (.failed (.decode .missingLengthFlag)) = 0x7 ∧ statusCode (.failed (.decode .missingMarker)) = 0x8 ∧
  statusCode (.failed (.decode .truncatedPayload)) = 0x9 ∧ statusCode (.failed (.decode .checksumMismatch)) = 0xA ∧
  statusCode (.failed (.decode .missingFooter)) = 0xB ∧ statusCode (.failed (.csum .emptyInput)) = 0xC ∧
  ∀ st, (statusCode st).toNat ≤ 0xC

/-- The class of each failure (R144); the classes of `OffsetOutOfRange`, `HeaderNotFound`, SCAN's `EmptyPayload` and
`EmptyInput` are this spec's own (D19). -/
def Obligations.FailureClassesOfTable : Prop :=
  ∀ f : Failure,
    (failureClass f = some .malformedInput ↔ ∃ e, f = .encode e) ∧
    (failureClass f = some .exhaustion ↔
      f ∈ [Failure.decode .bufferTooShort, .decode .truncatedLengthOrMarker, .decode .truncatedPayload,
        .decode .offsetOutOfRange, .decode .headerNotFound]) ∧
    (failureClass f = some .mismatch ↔
      f ∈ [Failure.decode .missingLengthFlag, .decode .missingMarker, .decode .checksumMismatch,
        .decode .missingFooter, .decode .emptyPayload]) ∧
    (failureClass f = none ↔ f = .csum .emptyInput)

/-- A response with a failure has `STATUS` and nothing else (R25, R143, R150), whichever instruction delivered it and in
every state. -/
def Obligations.FailureLeavesOnlyStatus : Prop :=
  ∀ (i : Instr) (s t : State) (x : Response), exec i s = .next t → t.response = some x → x.status ≠ .ok →
    x.out = none ∧ x.outLen = none ∧ x.hdrIdx = none ∧ x.endIdx = none ∧ x.csum = none

/-- The host reads `STATUS` of every response, and the other fields exactly when they have a value; a read of a field
with no value is a fault (R25, R175, D11, U2). -/
def Obligations.ReadOfAbsentFieldFaults : Prop :=
  (∀ (s : State) (f : Field), s.response = none → readField s f = .error .absentField) ∧
  ∀ (s : State) (x : Response), s.response = some x →
    readField s .status = .ok (.code (statusCode x.status)) ∧
    readField s .out = (match x.out with | some m => .ok (.bytes m) | none => .error .absentField) ∧
    readField s .outLen = (match x.outLen with | some n => .ok (.index n) | none => .error .absentField) ∧
    readField s .hdrIdx = (match x.hdrIdx with | some n => .ok (.index n) | none => .error .absentField) ∧
    readField s .endIdx = (match x.endIdx with | some n => .ok (.index n) | none => .error .absentField) ∧
    readField s .csum = (match x.csum with | some b => .ok (.byte b) | none => .error .absentField)

/-- The frame of every instruction: it leaves the reset input; and either the operation has ended with a response, no
request and no working value being left, or it is in progress, with every pending request and so every byte of `IN` as
before and no response. Only `FRAME.PREFIX` leaves one in progress; that it does, with the request kept and no response,
is the model's choice (log entry 7). -/
def Obligations.InstructionsChangeNothingElse : Prop :=
  ∀ (i : Instr) (s t : State), exec i s = .next t →
    (∃ x, t = answered s x) ∨
    (∃ n, i = .framePrefix n) ∧ t.resetIn = s.resetIn ∧ t.requests = s.requests ∧ t.response = none

/-! ### The wire-frame patterns -/

/-- `FRAME.PREFIX` with a non-zero length whose frame fits completes: payload and checksum are taken, the cursor stands
at the suffix, the request with every byte of its `IN` is as before (R79, R106, R108, R109; assumption 7). -/
def Obligations.FramePrefixTakesPayload : Prop :=
  ∀ (s : State) (op : BitVec 2) (bs : List Byte) (off h n : Nat),
    s.requests = [requestOf op bs off] → h = s.work.pos.getD off → 1 ≤ n → h + 7 + n ≤ bs.length →
    exec (.framePrefix n) s = .next
      ⟨s.resetIn, s.requests, none,
        ⟨some (h + 5 + n), some h, some n, some ((bs.drop (h + 5)).take n),
          some (xorSum ((bs.drop (h + 5)).take n))⟩⟩

/-- `FRAME.PREFIX` with length zero fails with `EmptyPayload`, with a frame that does not fit with `TruncatedPayload`,
as SCAN does behind a matching prefix (R106, R108; assumption 7). -/
def Obligations.FramePrefixFailures : Prop :=
  ∀ (s : State) (op : BitVec 2) (bs : List Byte) (off h n : Nat),
    s.requests = [requestOf op bs off] → h = s.work.pos.getD off →
    (n = 0 → exec (.framePrefix n) s = .next (answered s (failedWith (.decode .emptyPayload)))) ∧
    (n ≠ 0 → bs.length - (h + 4) < n + 3 →
      exec (.framePrefix n) s = .next (answered s (failedWith (.decode .truncatedPayload))))

/-- `FRAME.SUFFIX` behind a taken payload completes with SCAN's response when the checksum byte is right, and fails
with `ChecksumMismatch` when it is not (R79, R110, R112; assumption 7). -/
def Obligations.FrameSuffixEndsOperation : Prop :=
  ∀ (s : State) (r : Request) (pos h n : Nat) (p : List Byte) (acc c : Byte),
    s.requests = [r] → s.work = ⟨some pos, some h, some n, some p, some acc⟩ →
    (acc = c → exec (.frameSuffix c) s = .next (answered s
      ⟨.ok, some (Memory.ofBytes p), some n, some h, some (h + 6 + n), none⟩)) ∧
    (acc ≠ c → exec (.frameSuffix c) s = .next (answered s (failedWith (.decode .checksumMismatch))))

/-- A meaning run where nothing stands for it to act on is refused by name, never given a value: every instruction with
no request pending, every instruction with two, and `FRAME.SUFFIX` with no payload taken (assumption 14). -/
def Obligations.NothingToActOnRefused : Prop :=
  ∀ (i : Instr) (s : State),
    (s.requests = [] → exec i s = .refused .noRequest) ∧
    (∀ r r' rs, s.requests = r :: r' :: rs → exec i s = .refused .requestOverlap) ∧
    (∀ r c, s.requests = [r] → s.work.takenPayload = false →
      exec (.frameSuffix c) s = .refused .noFramePayload)

/-- The recogniser agrees with SCAN (R79, R113): with the cursor of a SCAN at any index up to the header found, the
pattern moves end in the very state the one atomic SCAN step ends in, after one step or two. The moves, and that a SCAN
in progress goes on from its cursor, are the model's choice (log entries 7 and 8). -/
def Obligations.PatternMovesAgreeWithScan : Prop :=
  ∀ (s t : State) (bs : List Byte) (off pos h : Nat),
    s.resetIn = false → s.requests = [requestOf 0b10 bs off] → s.work = Work.idle →
    off + 8 ≤ bs.length → FirstHeader bs off h → off ≤ pos → pos ≤ h → step s = .next t →
    let m : State := ⟨false, s.requests, s.response, ⟨some pos, none, none, none, none⟩⟩
    step m = .next t ∨ ∃ u, step m = .next u ∧ u.requests = s.requests ∧ u.response = none ∧ step u = .next t

/-! ### The invariant -/

/-- The invariant holds after reset. -/
def Obligations.ResetMeetsInvariant : Prop := Inv State.reset

/-- Every step keeps the invariant: byte spaces stay sequences of their length, a response has exactly the fields its
status and operation give it, indices and lengths fit `IDX_W` bits, and working values belong to the request being
served (R20, R25, R27, R40, R42). -/
def Obligations.StepKeepsInvariant : Prop :=
  ∀ s t : State, Inv s → step s = .next t → Inv t

/-- The host's moves keep the invariant: a well-formed request issued to an idle block, and reset. -/
def Obligations.HostMovesKeepInvariant : Prop :=
  ∀ (s : State) (r : Request), Inv s →
    (RequestOk r → s.requests = [] → Inv (issue s r)) ∧ Inv (applyReset s)

/-- From a state that meets the invariant no step faults: no operation reads past the end of `IN`, and none takes the
checksum of an empty sequence (R47, R133). -/
def Obligations.NoStepFaults : Prop :=
  ∀ (s : State) (e : Fault), Inv s → step s ≠ .fault e

/-- Every operation ends (R140, R183): one well-formed request with an operation's code, whatever it holds, is answered
in one step by a well-formed response. -/
def Obligations.EveryOperationAnswers : Prop :=
  ∀ (s : State) (r : Request), s.resetIn = false → s.requests = [r] → s.work = Work.idle → RequestOk r →
    r.op ≠ 0b00 → ∃ x, ResponseOk x ∧ step s = .next (answered s x)
end

