-- ==== Sys2Proof/Laws/Config.lean ====
section
/-!
SUPPORT. What is known of the open parameter `IDX_W` (spec/00_scope.md R7): it is at least 8, and no more.
-/

namespace Sys2Proof

theorem Config.eight_le_idxW : 8 ≤ Config.idxW := Nat.le_add_right 8 _

/-- A length up to 255 fits every `IDX_W`; a 134-byte frame's does (R7). -/
theorem Config.le_bufMax {n : Nat} (h : n ≤ 255) : n ≤ Config.bufMax := by
  have : 2 ^ 8 ≤ 2 ^ Config.idxW := Nat.pow_le_pow_right (by decide) Config.eight_le_idxW
  unfold Config.bufMax
  omega

theorem Config.lt_two_pow_idxW {n : Nat} (h : n ≤ 255) : n < 2 ^ Config.idxW := by
  have : 2 ^ 8 ≤ 2 ^ Config.idxW := Nat.pow_le_pow_right (by decide) Config.eight_le_idxW
  omega

end Sys2Proof
end

