-- ==== Sys2Proof/Laws/Memory.lean ====
section
/-!
SUPPORT. The laws of a byte space: a read after a write, the canonical form kept, and byte lists written one after the
other.
-/

namespace Sys2Proof.Machine

/-! ### Reading after writing -/

theorem Memory.read_write_same (m : Memory) (a : Nat) (b : Byte) : (Memory.write m a b).read a = some b := by
  induction m with
  | nil => simp [Memory.write, Memory.read]
  | cons c m ih =>
    obtain ⟨k, v⟩ := c
    simp only [Memory.write]
    split
    · simp [Memory.read]
    · split
      · simp [Memory.read]
      · rename_i h1 h2
        rw [Memory.read, if_neg (fun h : k = a => h2 h.symm), ih]

theorem Memory.read_write_other (m : Memory) {a a' : Nat} (b : Byte) (h : a' ≠ a) :
    (Memory.write m a b).read a' = m.read a' := by
  induction m with
  | nil => simp [Memory.write, Memory.read, h.symm]
  | cons c m ih =>
    obtain ⟨k, v⟩ := c
    simp only [Memory.write]
    split
    · simp [Memory.read, h.symm]
    · split
      · rename_i h1 h2
        subst h2
        simp [Memory.read, h.symm]
      · simp [Memory.read, ih]

/-- Bytes written from `a` on are read back in order, and every index outside them reads as before. -/
theorem read_memWrite (m : Memory) (bs : List Byte) (a i : Nat) :
    (memWrite m a bs).read i = if a ≤ i ∧ i < a + bs.length then bs[i - a]? else m.read i := by
  induction bs generalizing m a with
  | nil => rw [memWrite, if_neg (by simp)]
  | cons b bs ih =>
    rw [memWrite, ih]
    by_cases h1 : a + 1 ≤ i ∧ i < a + 1 + bs.length
    · obtain ⟨h2, h3⟩ := h1
      have : i - a = i - (a + 1) + 1 := by omega
      simp [h2, h3, this, show a ≤ i by omega, show i < a + (bs.length + 1) by omega]
    · rw [if_neg h1]
      by_cases h2 : i = a
      · subst h2
        simp [Memory.read_write_same]
      · rw [Memory.read_write_other _ _ h2, if_neg (by simp; omega)]

/-! ### The canonical form -/

theorem Memory.wf_nil : Memory.wf [] := List.Pairwise.nil

theorem Memory.mem_write_keys (m : Memory) (a : Nat) (b : Byte) (k : Nat) :
    k ∈ (Memory.write m a b).map Prod.fst → k = a ∨ k ∈ m.map Prod.fst := by
  induction m with
  | nil => simp [Memory.write]
  | cons c m ih =>
    obtain ⟨k0, v⟩ := c
    simp only [Memory.write]
    split
    · simp
    · split
      · simp only [List.map_cons, List.mem_cons]; tauto
      · simp only [List.map_cons, List.mem_cons]; tauto

/-- A write keeps the canonical form. -/
theorem Memory.write_keeps_wf {m : Memory} (h : m.wf) (a : Nat) (b : Byte) : (Memory.write m a b).wf := by
  induction m with
  | nil => simp [Memory.write, Memory.wf]
  | cons c m ih =>
    obtain ⟨k, v⟩ := c
    have hm : Memory.wf m := (List.pairwise_cons.1 h).2
    have hk : ∀ j ∈ m.map Prod.fst, k < j := (List.pairwise_cons.1 h).1
    simp only [Memory.write]
    split
    · rename_i hak
      refine List.pairwise_cons.2 ⟨?_, h⟩
      intro j hj
      rcases List.mem_cons.1 hj with rfl | hj
      · exact hak
      · exact lt_trans hak (hk j hj)
    · split
      · rename_i _ hak
        subst hak
        exact List.pairwise_cons.2 ⟨hk, hm⟩
      · refine List.pairwise_cons.2 ⟨?_, ih hm⟩
        intro j hj
        rcases Memory.mem_write_keys m a b j hj with rfl | hj
        · dsimp only; omega
        · exact hk j hj

/-- `MemWrite` keeps the canonical form. -/
theorem memWrite_keeps_wf {m : Memory} (h : m.wf) (a : Nat) (bs : List Byte) : (memWrite m a bs).wf := by
  induction bs generalizing m a with
  | nil => exact h
  | cons b bs ih => exact ih (Memory.write_keeps_wf h a b) (a + 1)

/-- A filled byte space is in canonical form. -/
theorem Memory.filled_wf {m : Memory} {n : Nat} (h : m.filled n) : m.wf := by
  rw [Memory.wf, h]
  exact List.pairwise_lt_range

/-! ### Byte lists as byte spaces -/

theorem Memory.keys_cellsFrom (a : Nat) (bs : List Byte) :
    (Memory.cellsFrom a bs).map Prod.fst = List.range' a bs.length := by
  induction bs generalizing a with
  | nil => rfl
  | cons b bs ih => simp [Memory.cellsFrom, ih, List.range'_succ]

theorem Memory.bytes_cellsFrom (a : Nat) (bs : List Byte) : (Memory.cellsFrom a bs).map Prod.snd = bs := by
  induction bs generalizing a with
  | nil => rfl
  | cons b bs ih => simp [Memory.cellsFrom, ih]

theorem Memory.ofBytes_filled (bs : List Byte) : (Memory.ofBytes bs).filled bs.length := by
  rw [Memory.filled, Memory.ofBytes, Memory.keys_cellsFrom, List.range_eq_range']

theorem Memory.ofBytes_wf (bs : List Byte) : (Memory.ofBytes bs).wf := Memory.filled_wf (Memory.ofBytes_filled bs)

/-- The byte space of a byte list determines the list. -/
theorem Memory.ofBytes_injective {bs cs : List Byte} (h : Memory.ofBytes bs = Memory.ofBytes cs) : bs = cs := by
  rw [← Memory.bytes_cellsFrom 0 bs, ← Memory.bytes_cellsFrom 0 cs]
  exact congrArg _ h

theorem Memory.eq_cellsFrom {m : Memory} {a n : Nat} (h : m.map Prod.fst = List.range' a n) :
    m = Memory.cellsFrom a (m.map Prod.snd) := by
  induction m generalizing a n with
  | nil => rfl
  | cons c m ih =>
    cases n with
    | zero => simp at h
    | succ n =>
      rw [List.range'_succ, List.map_cons, List.cons.injEq] at h
      rw [List.map_cons, Memory.cellsFrom, ← ih h.2, ← h.1]

/-- Every filled byte space is the byte space of a list of that length. -/
theorem Memory.eq_ofBytes_of_filled {m : Memory} {n : Nat} (h : m.filled n) :
    m = Memory.ofBytes (m.map Prod.snd) ∧ (m.map Prod.snd).length = n := by
  refine ⟨Memory.eq_cellsFrom (n := n) (by rw [h, List.range_eq_range']), ?_⟩
  have := congrArg List.length h
  simpa using this

theorem Memory.read_cellsFrom (a i : Nat) (bs : List Byte) :
    (Memory.cellsFrom a bs).read i = if a ≤ i then bs[i - a]? else none := by
  induction bs generalizing a with
  | nil => simp [Memory.cellsFrom, Memory.read]
  | cons b bs ih =>
    simp only [Memory.cellsFrom, Memory.read, ih]
    by_cases h : a = i
    · simp [h]
    · by_cases h2 : a ≤ i
      · have : i - a = i - (a + 1) + 1 := by omega
        simp [h, h2, this, show a + 1 ≤ i by omega]
      · simp [h, h2, show ¬ a + 1 ≤ i by omega]

/-- Reading the byte space of a list is indexing the list. -/
@[simp] theorem Memory.read_ofBytes (bs : List Byte) (i : Nat) : (Memory.ofBytes bs).read i = bs[i]? := by
  simp [Memory.ofBytes, Memory.read_cellsFrom]

theorem Memory.write_cellsFrom_end (a : Nat) (bs : List Byte) (b : Byte) :
    Memory.write (Memory.cellsFrom a bs) (a + bs.length) b = Memory.cellsFrom a (bs ++ [b]) := by
  induction bs generalizing a with
  | nil => rfl
  | cons c bs ih =>
    have h1 : ¬ a + (bs.length + 1) < a := by omega
    have h2 : ¬ a + (bs.length + 1) = a := by omega
    have h3 : a + (bs.length + 1) = a + 1 + bs.length := by omega
    simp only [Memory.cellsFrom, Memory.write, List.length_cons, h1, h2, if_false, List.cons_append]
    rw [h3, ih]

/-- Bytes written behind a sequence make the longer sequence. -/
theorem memWrite_ofBytes_end (bs cs : List Byte) {a : Nat} (h : a = bs.length) :
    memWrite (Memory.ofBytes bs) a cs = Memory.ofBytes (bs ++ cs) := by
  subst h
  induction cs generalizing bs with
  | nil => simp [memWrite]
  | cons c cs ih =>
    rw [memWrite]
    have h1 := Memory.write_cellsFrom_end 0 bs c
    rw [Nat.zero_add] at h1
    have h2 := ih (bs ++ [c])
    simp only [List.length_append, List.length_cons, List.length_nil, Nat.zero_add, List.append_assoc,
      List.cons_append, List.nil_append] at h2
    rw [Memory.ofBytes, h1]
    exact h2

/-- Bytes written into an empty byte space from index 0. -/
theorem memWrite_nil (bs : List Byte) : memWrite [] 0 bs = Memory.ofBytes bs :=
  memWrite_ofBytes_end [] bs rfl

end Sys2Proof.Machine
end

