-- ==== Sys2Proof/Laws/State.lean ====
section
/-!
SUPPORT. What every update of the state leaves in every field, true by definition; the provers cite these and unfold no
record update.
-/

namespace Sys2Proof.Machine

variable (s : State) (x : Response) (f : Failure) (r : Request)

@[simp] theorem deliver_resetIn : (deliver s x).resetIn = s.resetIn := rfl
@[simp] theorem deliver_requests : (deliver s x).requests = [] := rfl
@[simp] theorem deliver_response : (deliver s x).response = some x := rfl
@[simp] theorem deliver_work : (deliver s x).work = Work.idle := rfl

/-- Delivering a response is the only thing the end of an operation does. -/
theorem deliver_eq_answered : deliver s x = answered s x := rfl

/-- A failure is delivered like any response. -/
theorem raiseFailure_eq_answered : raiseFailure s f = answered s (failedWith f) := rfl

@[simp] theorem raiseFailure_resetIn : (raiseFailure s f).resetIn = s.resetIn := rfl
@[simp] theorem raiseFailure_requests : (raiseFailure s f).requests = [] := rfl
@[simp] theorem raiseFailure_response : (raiseFailure s f).response = some (Response.failure f) := rfl
@[simp] theorem raiseFailure_work : (raiseFailure s f).work = Work.idle := rfl

@[simp] theorem answered_resetIn : (answered s x).resetIn = s.resetIn := rfl
@[simp] theorem answered_requests : (answered s x).requests = [] := rfl
@[simp] theorem answered_response : (answered s x).response = some x := rfl
@[simp] theorem answered_work : (answered s x).work = Work.idle := rfl

@[simp] theorem issue_resetIn : (issue s r).resetIn = s.resetIn := rfl
@[simp] theorem issue_requests : (issue s r).requests = s.requests ++ [r] := rfl
@[simp] theorem issue_response : (issue s r).response = s.response := rfl
@[simp] theorem issue_work : (issue s r).work = s.work := rfl

@[simp] theorem applyReset_resetIn : (applyReset s).resetIn = true := rfl
@[simp] theorem applyReset_requests : (applyReset s).requests = s.requests := rfl
@[simp] theorem applyReset_response : (applyReset s).response = s.response := rfl
@[simp] theorem applyReset_work : (applyReset s).work = s.work := rfl

@[simp] theorem reset_resetIn : State.reset.resetIn = false := rfl
@[simp] theorem reset_requests : State.reset.requests = [] := rfl
@[simp] theorem reset_response : State.reset.response = none := rfl
@[simp] theorem reset_work : State.reset.work = Work.idle := rfl

@[simp] theorem Work.idle_pos : Work.idle.pos = none := rfl
@[simp] theorem Work.idle_takenPayload : Work.idle.takenPayload = false := rfl
@[simp] theorem Work.atSuffix_pos (h n : Nat) (p : List Byte) (acc : Byte) :
    (Work.atSuffix h n p acc).pos = some (h + 5 + n) := rfl
@[simp] theorem Work.atSuffix_takenPayload (h n : Nat) (p : List Byte) (acc : Byte) :
    (Work.atSuffix h n p acc).takenPayload = true := rfl

@[simp] theorem requestOf_op (op : BitVec 2) (bs : List Byte) (off : Nat) : (requestOf op bs off).op = op := rfl
@[simp] theorem requestOf_inLen (op : BitVec 2) (bs : List Byte) (off : Nat) :
    (requestOf op bs off).inLen = bs.length := rfl
@[simp] theorem requestOf_offset (op : BitVec 2) (bs : List Byte) (off : Nat) :
    (requestOf op bs off).offset = off := rfl
@[simp] theorem requestOf_input (op : BitVec 2) (bs : List Byte) (off : Nat) :
    (requestOf op bs off).input = Memory.ofBytes bs := rfl

@[simp] theorem conclude_ok : conclude s (.ok x) = .next (answered s x) := rfl
@[simp] theorem conclude_raise : conclude s (.error (.raise f)) = .next (answered s (failedWith f)) := rfl
@[simp] theorem conclude_fault (e : Fault) : conclude s (.error (.fault e)) = .fault e := rfl

/-- The end of an operation is a delivered response or a model fault, never a refusal. -/
theorem conclude_next {s t : State} {e : Except Stop Response} (h : conclude s e = .next t) :
    (∃ x, e = .ok x ∧ t = answered s x) ∨ (∃ f, e = .error (.raise f) ∧ t = answered s (failedWith f)) := by
  match e, h with
  | .ok x, h => exact .inl ⟨x, rfl, (Host.Outcome.next.inj h).symm⟩
  | .error (.raise f), h => exact .inr ⟨f, rfl, (Host.Outcome.next.inj h).symm⟩
  | .error (.fault _), h => cases h

/-- An operation runs on exactly one pending request. -/
theorem onRequest_single {s : State} {r : Request} (h : s.requests = [r])
    (k : Request → Host.Outcome State Fault Refusal) : onRequest s k = k r := by
  simp [onRequest, h]

/-- If an operation answers a next state, one request was pending and its continuation gave the answer. -/
theorem onRequest_next {s t : State} {k : Request → Host.Outcome State Fault Refusal}
    (h : onRequest s k = .next t) : ∃ r, s.requests = [r] ∧ k r = .next t := by
  unfold onRequest at h
  split at h
  · cases h
  · exact ⟨_, ‹_›, h⟩
  · cases h

end Sys2Proof.Machine
end

