-- ==== Sys2Proof/Laws/Operands.lean ====
section
/-!
SUPPORT. What reading `IN` answers: the byte at the index, the slice, or the model error of spec/20_memory.md R47; and
the checksum of a sequence.
-/

namespace Sys2Proof.Machine

/-- A request with a well-formed `IN` is the request of a byte list. -/
theorem eq_requestOf {r : Request} (h : r.input.filled r.inLen) :
    r = requestOf r.op (r.input.map Prod.snd) r.offset := by
  obtain ⟨h1, h2⟩ := Memory.eq_ofBytes_of_filled h
  obtain ⟨op, input, inLen, offset⟩ := r
  simp only at h1 h2
  simp only [requestOf, ← h1, h2]

theorem inByte_ok {r : Request} {a : Nat} {b : Byte} (h : a < r.inLen) (hb : r.input.read a = some b) :
    inByte r a = .ok b := by
  simp [inByte, h, hb]

/-- If a byte is read, it stands below `IN_LEN` (R47). -/
theorem inByte_eq_ok {r : Request} {a : Nat} {b : Byte} (h : inByte r a = .ok b) :
    a < r.inLen ∧ r.input.read a = some b := by
  unfold inByte at h
  split at h
  · split at h
    · exact ⟨‹_›, by cases h; assumption⟩
    · cases h
  · cases h

variable {op : BitVec 2} {bs : List Byte} {off : Nat}

theorem inByte_requestOf {a : Nat} {b : Byte} (h : bs[a]? = some b) : inByte (requestOf op bs off) a = .ok b := by
  have ha : a < bs.length := by
    rw [List.getElem?_eq_some_iff] at h
    exact h.1
  exact inByte_ok ha (by simpa using h)

theorem inBytes_requestOf {n a : Nat} (h : a + n ≤ bs.length) :
    inBytes (requestOf op bs off) a n = .ok ((bs.drop a).take n) := by
  induction n generalizing a with
  | zero => simp [inBytes]
  | succ n ih =>
    have ha : a < bs.length := by omega
    rw [inBytes, inByte_requestOf (List.getElem?_eq_getElem ha), ih (by omega), List.drop_eq_getElem_cons ha]
    rfl

/-- `MemRead(a, n)` is the slice of `n` bytes from `a` on, when it lies in `IN` (R9, R12). -/
theorem memRead_requestOf {n a : Nat} (h : a + n ≤ bs.length) :
    memRead (requestOf op bs off) a n = .ok ((bs.drop a).take n) := by
  rw [memRead, if_pos (by simpa using h), inBytes_requestOf h]

/-- `MemRead(a, n)` past the end is the model error of R47. -/
theorem memRead_past_end {r : Request} {n a : Nat} (h : r.inLen < a + n) :
    memRead r a n = .error (.fault .readOutsideIn) := by
  rw [memRead, if_neg (by omega)]

theorem inBytes_length {r : Request} {n a : Nat} {p : List Byte} (h : inBytes r a n = .ok p) : p.length = n := by
  induction n generalizing a p with
  | zero => cases h; rfl
  | succ n ih =>
    rw [inBytes] at h
    cases h1 : inByte r a with
    | error e => rw [h1] at h; cases h
    | ok b =>
      cases h2 : inBytes r (a + 1) n with
      | error e => rw [h1, h2] at h; cases h
      | ok cs =>
        rw [h1, h2] at h
        cases h
        simp [ih h2]

/-- What `MemRead` answers has the length asked for and lies in `IN`. -/
theorem memRead_eq_ok {r : Request} {n a : Nat} {p : List Byte} (h : memRead r a n = .ok p) :
    a + n ≤ r.inLen ∧ p.length = n := by
  unfold memRead at h
  split at h
  · exact ⟨‹_›, inBytes_length h⟩
  · cases h

/-! ### The checksum -/

theorem foldl_xor_init (bs : List Byte) (b : Byte) : bs.foldl (· ^^^ ·) b = b ^^^ xorSum bs := by
  induction bs generalizing b with
  | nil => simp [xorSum]
  | cons c bs ih =>
    have h2 := ih (0 ^^^ c)
    simp only [xorSum, List.foldl_cons] at *
    rw [ih, h2]
    simp [BitVec.xor_assoc]

@[simp] theorem xorSum_nil : xorSum [] = 0 := rfl

@[simp] theorem xorSum_cons (b : Byte) (bs : List Byte) : xorSum (b :: bs) = b ^^^ xorSum bs := by
  rw [xorSum, List.foldl_cons, foldl_xor_init]
  simp

@[simp] theorem xorSum_append (bs cs : List Byte) : xorSum (bs ++ cs) = xorSum bs ^^^ xorSum cs := by
  induction bs with
  | nil => simp
  | cons b bs ih => simp [ih, BitVec.xor_assoc]

/-- The fold of a non-empty sequence is its exclusive-or; the empty sequence has none (R130, R131, G1). -/
theorem xorFold_eq (bs : List Byte) : xorFold bs = if bs = [] then none else some (xorSum bs) := by
  cases bs with
  | nil => rfl
  | cons b bs => simp [xorFold, foldl_xor_init]

theorem csumOf_ok {bs : List Byte} (h : bs ≠ []) : csumOf bs = .ok (xorSum bs) := by
  simp [csumOf, xorFold_eq, h]

theorem csumOf_eq_ok {bs : List Byte} {c : Byte} (h : csumOf bs = .ok c) : bs ≠ [] ∧ c = xorSum bs := by
  by_cases hb : bs = []
  · subst hb; cases h
  · rw [csumOf_ok hb] at h
    cases h
    exact ⟨hb, rfl⟩

end Sys2Proof.Machine
end

