-- ==== Sys2Proof/Laws/Format.lean ====
section
/-!
SUPPORT. The length field's arithmetic (spec/30_encoding.md R66, R67) and the constants as numerals.
-/

namespace Sys2Proof.Machine

theorem lenBits_eq : lenBits = 15 := rfl

/-- The decoded length: seven bits of the first byte above eight bits of the second (R66). -/
theorem decodeLength_eq (b2 b3 : Byte) : decodeLength b2 b3 = b2.toNat % 128 * 256 + b3.toNat := by
  have h2 := b2.isLt
  have h3 := b3.isLt
  have hand : b2.toNat &&& 127 = b2.toNat % 128 := Nat.and_two_pow_sub_one_eq_mod b2.toNat 7
  have hlt : b2.toNat % 128 < 128 := Nat.mod_lt _ (by decide)
  have hadd := Nat.shiftLeft_add_eq_or_of_lt (i := 8) (b := b3.toNat) h3 (b2.toNat % 128)
  simp only [Nat.shiftLeft_eq] at hadd
  simp only [decodeLength, lenHiMask, BitVec.toNat_or, BitVec.toNat_shiftLeft, BitVec.toNat_setWidth,
    BitVec.toNat_and, Nat.shiftLeft_eq]
  have e : BitVec.toNat (127 : Byte) = 127 := rfl
  rw [lenBits_eq, e, hand, Nat.mod_eq_of_lt (a := b2.toNat % 128) (by omega),
    Nat.mod_eq_of_lt (a := b3.toNat) (by omega), Nat.mod_eq_of_lt (a := b2.toNat % 128 * 2 ^ 8) (by omega), ← hadd]

/-- A decoded length has 15 bits (R66, R105). -/
theorem decodeLength_le (b2 b3 : Byte) : decodeLength b2 b3 ≤ 32767 := by
  have h2 := b2.isLt
  have h3 := b3.isLt
  rw [decodeLength_eq]
  omega

theorem lenHi_eq (n : Nat) : lenHi n = 0x80 ||| BitVec.ofNat 8 (n / 256) := by
  simp [lenHi, lenFlag, Nat.shiftRight_eq_div_pow]

theorem lenLo_eq (n : Nat) : lenLo n = BitVec.ofNat 8 (n % 256) := by
  rw [lenLo, show (0xFF : Nat) = 2 ^ 8 - 1 from rfl, Nat.and_two_pow_sub_one_eq_mod]

/-- The flag bit of an encoded length is set (R63, R67). -/
theorem lenHi_flag (n : Nat) : lenHi n &&& 0x80 ≠ 0 := by
  rw [lenHi_eq]
  intro h
  have := congrArg (fun v : Byte => v.getLsbD 7) h
  simp at this

theorem toNat_flag_or (n : Nat) (h : n < 128) : (0x80 ||| BitVec.ofNat 8 n : Byte).toNat % 128 = n := by
  rw [BitVec.toNat_or, BitVec.toNat_ofNat, Nat.mod_eq_of_lt (by omega : n < 2 ^ 8)]
  have e : BitVec.toNat (128 : Byte) = 1 <<< 7 := rfl
  rw [e, ← Nat.shiftLeft_add_eq_or_of_lt (by omega : n < 2 ^ 7)]
  simp only [Nat.shiftLeft_eq]
  omega

/-- Decoding an encoded length gives it back, for every 15-bit length (R66, R67). -/
theorem decodeLength_encoded {n : Nat} (h : n ≤ 32767) : decodeLength (lenHi n) (lenLo n) = n := by
  rw [decodeLength_eq, lenHi_eq, lenLo_eq, toNat_flag_or _ (by omega), BitVec.toNat_ofNat]
  omega

theorem hdr0_eq : hdr0 = 0xA5 := rfl
theorem hdr1_eq : hdr1 = 0x5A := rfl
theorem lenFlag_eq : lenFlag = 0x80 := rfl
theorem marker_eq : marker = 0xA0 := rfl
theorem footer_eq : footer = 0x04 := rfl
theorem scanMaxPayload_eq : scanMaxPayload = 32767 := rfl

end Sys2Proof.Machine
end

