-- ==== Sys2Proof/Laws/Decode.lean ====
section
/-!
SUPPORT. The mask and match of the wire-frame patterns, byte by byte (spec/30_encoding.md R62, R64), and what a table
word is laid out as.
-/

namespace Sys2Proof

theorem append_eq_append_iff {n m : Nat} {a c : BitVec n} {b d : BitVec m} : a ++ b = c ++ d ↔ a = c ∧ b = d := by
  constructor
  · intro h
    constructor
    · apply BitVec.eq_of_getLsbD_eq
      intro i _
      have := congrArg (fun v => BitVec.getLsbD v (m + i)) h
      simpa [BitVec.getLsbD_append] using this
    · apply BitVec.eq_of_getLsbD_eq
      intro i hi
      have := congrArg (fun v => BitVec.getLsbD v i) h
      simpa [BitVec.getLsbD_append, hi] using this
  · rintro ⟨rfl, rfl⟩
    rfl

theorem append_and_append {n m : Nat} (a c : BitVec n) (b d : BitVec m) :
    (a ++ b) &&& (c ++ d) = (a &&& c) ++ (b &&& d) := by
  apply BitVec.eq_of_getLsbD_eq
  intro i _
  simp only [BitVec.getLsbD_and, BitVec.getLsbD_append]
  split <;> rfl

theorem toNat_append_eq {n m : Nat} (a : BitVec n) (b : BitVec m) : (a ++ b).toNat = a.toNat * 2 ^ m + b.toNat := by
  rw [BitVec.toNat_append, ← Nat.shiftLeft_add_eq_or_of_lt b.isLt, Nat.shiftLeft_eq]

theorem byte_and_ff (b : Byte) : b &&& 0xFF = b := by revert b; decide
theorem byte_and_zero (b : Byte) : b &&& 0x00 = 0x00 := by revert b; decide
theorem byte_flag_iff (b : Byte) : b &&& 0x80 = 0x80 ↔ b &&& 0x80 ≠ 0 := by revert b; decide

/-- Five bytes match the prefix pattern exactly when header, flag and marker do (R62). -/
theorem prefixMatch_iff (b0 b1 b2 b3 b4 : Byte) :
    ((b0 ++ b1 ++ b2 ++ b3 ++ b4) &&& prefixMask = prefixMatch) ↔
      b0 = 0xA5 ∧ b1 = 0x5A ∧ b2 &&& 0x80 ≠ 0 ∧ b4 = 0xA0 := by
  have e : ((b0 ++ b1 ++ b2 ++ b3 ++ b4) &&& prefixMask = prefixMatch) ↔
      (b0 &&& 0xFF) ++ (b1 &&& 0xFF) ++ (b2 &&& Machine.lenFlag) ++ (b3 &&& 0x00) ++ (b4 &&& 0xFF) =
        Machine.hdr0 ++ Machine.hdr1 ++ Machine.lenFlag ++ (0x00 : Byte) ++ Machine.marker := by
    rw [← append_and_append, ← append_and_append, ← append_and_append, ← append_and_append]
    exact Iff.rfl
  rw [e, append_eq_append_iff, append_eq_append_iff, append_eq_append_iff, append_eq_append_iff, byte_and_ff,
    byte_and_ff, byte_and_ff, byte_and_zero, Machine.lenFlag_eq, byte_flag_iff, Machine.hdr0_eq, Machine.hdr1_eq,
    Machine.marker_eq]
  constructor
  · rintro ⟨⟨⟨⟨h0, h1⟩, h2⟩, _⟩, h4⟩
    exact ⟨h0, h1, h2, h4⟩
  · rintro ⟨h0, h1, h2, h4⟩
    exact ⟨⟨⟨⟨h0, h1⟩, h2⟩, rfl⟩, h4⟩

/-- The `LEN_BITS` bits from bit 8 up of a prefix are the length its two bytes encode (R62, R66). -/
theorem prefixLength_eq (b0 b1 b2 b3 b4 : Byte) :
    ((b0 ++ b1 ++ b2 ++ b3 ++ b4) >>> 8).toNat % 2 ^ Machine.lenBits = b2.toNat % 128 * 256 + b3.toNat := by
  have := b4.isLt
  have := b3.isLt
  rw [BitVec.toNat_ushiftRight, toNat_append_eq, toNat_append_eq, toNat_append_eq, toNat_append_eq,
    Nat.shiftRight_eq_div_pow, Machine.lenBits_eq]
  omega

/-- Two bytes match the suffix pattern exactly when the second is the footer (R64). -/
theorem suffixMatch_iff (b0 b1 : Byte) : ((b0 ++ b1) &&& suffixMask = suffixMatch) ↔ b1 = 0x04 := by
  rw [suffixMask, suffixMatch, append_and_append, append_eq_append_iff, byte_and_ff, byte_and_zero, Machine.footer_eq]
  simp

/-- The upper byte of a suffix is its checksum byte (R64). -/
theorem suffixChecksum_eq (b0 b1 : Byte) : ((b0 ++ b1) >>> 8).setWidth 8 = b0 := by
  apply BitVec.eq_of_toNat_eq
  have := b1.isLt
  have := b0.isLt
  rw [BitVec.toNat_setWidth, BitVec.toNat_ushiftRight, toNat_append_eq, Nat.shiftRight_eq_div_pow]
  omega

/-- A table word of `k` bytes is laid out as `k` bytes. -/
@[simp] theorem tableBytes_length (k w : Nat) : (tableBytes k w).length = k := by
  induction k with
  | zero => rfl
  | succ k ih => simp [tableBytes, ih]

/-- Wire bytes that decode are five or two. -/
theorem decode_frame_length {bytes : List Byte} {i : Instr} (h : decode (.frame bytes) = .ok i) :
    bytes.length = 5 ∨ bytes.length = 2 := by
  match bytes, h with
  | [_, _, _, _, _], _ => exact .inl rfl
  | [_, _], _ => exact .inr rfl

end Sys2Proof
end

