-- ==== Sys2Proof/Laws/PerInstr.lean ====
section
/-!
SUPPORT. Statements made per instruction. `CodeShape`: the code of an instruction has the size its row of
spec/opcode_table.json gives it: two bits that are not the reserved code, or 5 bytes, or 2 bytes.
-/

namespace Sys2Proof.Laws.CodeShape

def Statement (i : Instr) : Prop :=
  match encode i with
  | .op v => v ≠ 0b00
  | .frame bytes => bytes.length = 5 ∨ bytes.length = 2

theorem enc : Statement .enc := by unfold Statement encode; decide
theorem scan : Statement .scan := by unfold Statement encode; decide
theorem csum : Statement .csum := by unfold Statement encode; decide
theorem framePrefix (n : Nat) : Statement (.framePrefix n) := .inl rfl
theorem frameSuffix (c : Byte) : Statement (.frameSuffix c) := .inr rfl

end Sys2Proof.Laws.CodeShape
end

