-- ==== Sys2Proof/Laws/Scanner.lean ====
section
/-!
SUPPORT. One lemma per piece of SCAN, on the request of a byte list: what the header search, the prefix tests, the
payload and the closing tests answer (spec/41_scanner.md R102 to R112).
-/

namespace Sys2Proof.Machine

variable {op : BitVec 2} {bs : List Byte} {off : Nat}

theorem headerPair_lt {i : Nat} (h : HeaderPair bs i) : i + 1 < bs.length :=
  (List.getElem?_eq_some_iff.1 h.2).1

/-- One pair tested: the search ends at a header pair and goes on after any other. -/
theorem findHeader_succ {fuel pos : Nat} (h : pos + 1 < bs.length) :
    (HeaderPair bs pos → findHeader (requestOf op bs off) (fuel + 1) pos = .ok pos) ∧
    (¬ HeaderPair bs pos →
      findHeader (requestOf op bs off) (fuel + 1) pos = findHeader (requestOf op bs off) fuel (pos + 1)) := by
  have e0 : bs[pos]? = some bs[pos] := List.getElem?_eq_getElem (by omega)
  have e1 : bs[pos + 1]? = some bs[pos + 1] := List.getElem?_eq_getElem h
  have key : findHeader (requestOf op bs off) (fuel + 1) pos =
      if bs[pos] = hdr0 ∧ bs[pos + 1] = hdr1 then .ok pos
      else findHeader (requestOf op bs off) fuel (pos + 1) := by
    rw [findHeader, inByte_requestOf e0, inByte_requestOf e1]
    rfl
  rw [key]
  constructor
  · rintro ⟨h0, h1⟩
    rw [e0, Option.some.injEq] at h0
    rw [e1, Option.some.injEq] at h1
    rw [if_pos ⟨h0, h1⟩]
  · intro hn
    rw [if_neg]
    rintro ⟨h0, h1⟩
    exact hn ⟨by rw [e0, h0]; rfl, by rw [e1, h1]; rfl⟩

/-- The search of the pairs at `pos` to `pos + fuel − 1`: the least header pair, if there is one. -/
theorem findHeader_spec (fuel pos : Nat) (hf : pos + fuel < bs.length ∨ fuel = 0) :
    (∃ h, FirstHeader bs pos h ∧ h < pos + fuel ∧ findHeader (requestOf op bs off) fuel pos = .ok h) ∨
    ((∀ i, pos ≤ i → i < pos + fuel → ¬ HeaderPair bs i) ∧
      findHeader (requestOf op bs off) fuel pos = scanRaise .headerNotFound) := by
  induction fuel generalizing pos with
  | zero => exact .inr ⟨fun i _ _ => by omega, rfl⟩
  | succ fuel ih =>
    have hl : pos + 1 < bs.length := by omega
    by_cases hp : HeaderPair bs pos
    · exact .inl ⟨pos, ⟨le_rfl, hp, fun i h1 h2 => by omega⟩, by omega, (findHeader_succ hl).1 hp⟩
    · rw [(findHeader_succ hl).2 hp]
      rcases ih (pos + 1) (by omega) with ⟨h, ⟨h1, h2, h3⟩, h4, h5⟩ | ⟨h1, h2⟩
      · refine .inl ⟨h, ⟨by omega, h2, fun i hi hih => ?_⟩, by omega, h5⟩
        rcases Nat.eq_or_lt_of_le hi with rfl | hi
        · exact hp
        · exact h3 i hi hih
      · refine .inr ⟨fun i hi hif => ?_, h2⟩
        rcases Nat.eq_or_lt_of_le hi with rfl | hi
        · exact hp
        · exact h1 i hi (by omega)

theorem firstHeader_unique {h h' : Nat} (a : FirstHeader bs off h) (b : FirstHeader bs off h') : h = h' := by
  obtain ⟨a1, a2, a3⟩ := a
  obtain ⟨b1, b2, b3⟩ := b
  rcases Nat.lt_trichotomy h h' with hl | rfl | hl
  · exact absurd a2 (b3 h a1 hl)
  · rfl
  · exact absurd b2 (a3 h' b1 hl)

/-- Step 2 finds the first header pair (R102). -/
theorem findHeader_found {pos h : Nat} (hh : FirstHeader bs pos h) :
    findHeader (requestOf op bs off) (bs.length - 1 - pos) pos = .ok h := by
  have hl := headerPair_lt hh.2.1
  have h1 := hh.1
  rcases findHeader_spec (op := op) (bs := bs) (off := off) (bs.length - 1 - pos) pos (by omega) with
    ⟨h', a, _, e⟩ | ⟨a, _⟩
  · rw [e, firstHeader_unique hh a]
  · exact absurd hh.2.1 (a h h1 (by omega))

/-- Step 2 fails when no header pair is left (R102). -/
theorem findHeader_none {pos : Nat} (hn : ∀ i, pos ≤ i → ¬ HeaderPair bs i) :
    findHeader (requestOf op bs off) (bs.length - 1 - pos) pos = scanRaise .headerNotFound := by
  rcases findHeader_spec (op := op) (bs := bs) (off := off) (bs.length - 1 - pos) pos (by omega) with
    ⟨h, a, _, _⟩ | ⟨_, e⟩
  · exact absurd a.2.1 (hn h a.1)
  · exact e

/-- There is a first header pair or none at all. -/
theorem firstHeader_or_none (pos : Nat) : (∃ h, FirstHeader bs pos h) ∨ ∀ i, pos ≤ i → ¬ HeaderPair bs i := by
  rcases findHeader_spec (op := 0) (bs := bs) (off := 0) (bs.length - 1 - pos) pos (by omega) with
    ⟨h, a, _, _⟩ | ⟨a, _⟩
  · exact .inl ⟨h, a⟩
  · refine .inr fun i hi hp => ?_
    have := headerPair_lt hp
    exact a i hi (by omega) hp

/-- Steps 3 to 5 when fewer than three bytes follow the header (R103). -/
theorem frameLength_truncated {r : Request} {h : Nat} (hl : r.inLen - (h + 2) < 3) :
    frameLength r h = scanRaise .truncatedLengthOrMarker := by
  rw [frameLength, if_pos hl]

/-- Steps 3 to 5 on three bytes that exist: the flag, the zero length, the marker, in this order (R104 to R107). -/
theorem frameLength_bytes {h : Nat} {b2 b3 b4 : Byte} (e2 : bs[h + 2]? = some b2) (e3 : bs[h + 3]? = some b3)
    (e4 : bs[h + 4]? = some b4) :
    frameLength (requestOf op bs off) h =
      if b2 &&& 0x80 = 0 then scanRaise .missingLengthFlag
      else if b2.toNat % 128 * 256 + b3.toNat = 0 then scanRaise .emptyPayload
      else if b4 ≠ 0xA0 then scanRaise .missingMarker
      else .ok (b2.toNat % 128 * 256 + b3.toNat) := by
  have hl : h + 4 < bs.length := (List.getElem?_eq_some_iff.1 e4).1
  rw [frameLength, if_neg (by simp; omega), inByte_requestOf e2]
  simp only [bind, Except.bind]
  rw [inByte_requestOf e3]
  simp only
  rw [inByte_requestOf e4]
  simp only [decodeLength_eq, lenFlag_eq, marker_eq]

/-- Steps 6 and 7 when the frame does not fit (R108). -/
theorem takePayload_truncated {r : Request} {h n : Nat} (hl : r.inLen - (h + 4) < n + 3) :
    takePayload r h n = scanRaise .truncatedPayload := by
  rw [takePayload, if_pos hl]

/-- Steps 6 and 7 when the frame fits: the `n` bytes after the marker (R108, R109). -/
theorem takePayload_fits {h n : Nat} (hl : h + 7 + n ≤ bs.length) :
    takePayload (requestOf op bs off) h n = .ok ((bs.drop (h + 5)).take n) := by
  rw [takePayload, if_neg (by simp; omega), memRead_requestOf (by omega)]

/-- Steps 8 to 10: the checksum test, then the footer test, then success (R110 to R112). -/
theorem scanEnd_bytes {h n : Nat} {p : List Byte} {c f : Byte} (hp : p ≠ []) (ec : bs[h + 5 + n]? = some c)
    (ef : bs[h + 6 + n]? = some f) :
    scanEnd (requestOf op bs off) h n p =
      if xorSum p ^^^ c ≠ 0 then scanRaise .checksumMismatch
      else if f ≠ 0x04 then scanRaise .missingFooter
      else .ok ⟨.ok, some (Memory.ofBytes p), some n, some h, some (h + 6 + n), none⟩ := by
  rw [scanEnd, csumOf_ok hp]
  simp only [bind, Except.bind]
  rw [inByte_requestOf ec, inByte_requestOf ef]
  simp only [verifyChecksum, footer_eq, scanSuccess, memWrite_nil, Response.scanOk]

/-- The checksum test alone (R110). -/
theorem verifyChecksum_eq (acc c : Byte) (k : Except Stop Response) :
    verifyChecksum acc c k = if acc = c then k else scanRaise .checksumMismatch := by
  by_cases h : acc = c <;> simp [verifyChecksum, h]

end Sys2Proof.Machine
end

