-- ==== Sys2Proof/Laws/Step.lean ====
section
/-!
SUPPORT. What a step can do, said once; and what `fetch` selects.
-/

namespace Sys2Proof.Machine

/-- With no operation in progress, `OP` alone selects (R75, R76). -/
theorem fetch_idle {r : Request} {w : Work} (h : w.pos = none) :
    fetch r w = match decode (.op r.op) with
      | .ok i => .ok i
      | .error _ => .error .reservedOp := by
  have hp : patternAtCursor r w = none := by simp [patternAtCursor, h]
  unfold fetch
  split <;> simp_all

/-- The code of an operation never selects a wire-frame row. -/
theorem decodeOp_cases (v : BitVec 2) :
    (v = 0b00 ∧ decode (.op v) = .error .reservedOp) ∨ (v = 0b01 ∧ decode (.op v) = .ok .enc) ∨
    (v = 0b10 ∧ decode (.op v) = .ok .scan) ∨ (v = 0b11 ∧ decode (.op v) = .ok .csum) := by
  revert v
  decide

/-- Everything a step that answers a next state can be: a reset, an idle step, or one instruction on the one pending
request. -/
theorem step_next {s t : State} (h : step s = .next t) :
    (s.resetIn = true ∧ t = State.reset) ∨
    (s.resetIn = false ∧ s.requests = [] ∧ t = { s with response := none, work := Work.idle }) ∨
    (s.resetIn = false ∧ ∃ r i, s.requests = [r] ∧ fetch r s.work = .ok i ∧ exec i s = .next t) := by
  unfold step at h
  by_cases hr : s.resetIn = true
  · rw [if_pos hr] at h
    exact .inl ⟨hr, (Host.Outcome.next.inj h).symm⟩
  · rw [if_neg hr] at h
    have hr' : s.resetIn = false := by simpa using hr
    split at h
    · exact .inr (.inl ⟨hr', ‹_›, (Host.Outcome.next.inj h).symm⟩)
    · rename_i r hreq
      split at h
      · rename_i i hf
        exact .inr (.inr ⟨hr', r, i, hreq, hf, h⟩)
      · cases h
    · cases h

/-- The step on one pending request that selects an instruction is that instruction. -/
theorem step_fetched {s : State} {r : Request} {i : Instr} (hr : s.resetIn = false) (hreq : s.requests = [r])
    (hf : fetch r s.work = .ok i) : step s = exec i s := by
  simp [step, hr, hreq, hf]

end Sys2Proof.Machine
end

