-- ==== Sys2Proof/Tests/Slice0.lean ====
section
/-!
SUPPORT. Tests. The words are written out from spec/30_encoding.md R62, R64 and R75, the expected results taken from the
vectors of spec/95_test_vectors.md named in each comment. The second part shows, for every statement with hypotheses,
a concrete state and operands that meet them all.
-/

namespace Sys2Proof.Tests

open Sys2Proof Sys2Proof.Machine

/-! ### Well-formedness -/

theorem test_wf_refuses_sixteen_bit_length : (Instr.framePrefix 32768).wf = false := by decide
theorem test_wf_accepts_fifteen_bit_length : (Instr.framePrefix 32767).wf = true := by decide

/-! ### Decoding, each word bit by bit -/

theorem test_decode_enc : decode (.op 0b01#2) = .ok .enc := by decide
theorem test_decode_scan : decode (.op 0b10#2) = .ok .scan := by decide
theorem test_decode_csum : decode (.op 0b11#2) = .ok .csum := by decide
theorem test_decode_reserved : decode (.op 0b00#2) = .error .reservedOp := by decide

/-- The prefix of the literal scenario S1: `A5 5A 80 04 A0`. -/
theorem test_decode_framePrefix :
    decode (.frame [0b10100101#8, 0b01011010#8, 0b10000000#8, 0b00000100#8, 0b10100000#8]) = .ok (.framePrefix 4) := by
  decide

/-- V22b's length bytes `81 00`: the first byte is the more significant. -/
theorem test_decode_framePrefix_big_endian :
    decode (.frame [0b10100101#8, 0b01011010#8, 0b10000001#8, 0b00000000#8, 0b10100000#8]) = .ok (.framePrefix 256) := by
  decide

/-- The suffix of S1: `44 04`. -/
theorem test_decode_frameSuffix :
    decode (.frame [0b01000100#8, 0b00000100#8]) = .ok (.frameSuffix 0x44) := by decide

/-- V16b: the flag bit clear. -/
theorem test_decode_prefix_without_flag : decode (.frame [0xA5, 0x5A, 0x7F, 0xFF, 0xA0]) = .error .notPrefix := by decide
/-- V18b: the marker without bit 7. -/
theorem test_decode_prefix_wrong_marker : decode (.frame [0xA5, 0x5A, 0x80, 0x01, 0x20]) = .error .notPrefix := by decide
/-- V21a: the footer one bit off. -/
theorem test_decode_suffix_wrong_footer : decode (.frame [0x55, 0x05]) = .error .notSuffix := by decide
theorem test_decode_frame_length : decode (.frame [0xA5, 0x5A, 0x80]) = .error .frameLength := by decide

/-- The table's numbers, byte 0 leftmost (R79). -/
theorem test_table_words :
    decodeTableWord 8 1 = some .enc ∧ decodeTableWord 8 2 = some .scan ∧ decodeTableWord 8 3 = some .csum ∧
    decodeTableWord 8 0 = none ∧ decodeTableWord 40 0xA55A8004A0 = some (.framePrefix 4) ∧
    decodeTableWord 40 0xA55A0004A0 = none ∧ decodeTableWord 16 0x4404 = some (.frameSuffix 0x44) ∧
    decodeTableWord 16 0x4405 = none := by decide

/-! ### Meanings, one step each -/

/-- One request pending, nothing in progress. -/
def serving (op : BitVec 2) (bs : List Byte) (off : Nat) : State := ⟨false, [requestOf op bs off], none, Work.idle⟩

/-- A SCAN in progress with its cursor at `pos`. -/
def atCursor (bs : List Byte) (off pos : Nat) : State :=
  ⟨false, [requestOf 0b10 bs off], none, ⟨some pos, none, none, none, none⟩⟩

/-- A SCAN in progress whose payload has been taken. -/
def atSuffix (bs : List Byte) (h n : Nat) (p : List Byte) (acc : Byte) : State :=
  ⟨false, [requestOf 0b10 bs 0], none, ⟨some (h + 5 + n), some h, some n, some p, some acc⟩⟩

/-- What a step delivered. -/
def delivered (s : State) : Option Response := (nextOf (step s)).bind State.response

/-- The buffer of the literal scenario S1. -/
def s1 : List Byte := [0x45, 0xA5, 0x22, 0x32, 0xA5, 0x5A, 0x80, 0x04, 0xA0, 0x01, 0x23, 0xAB, 0xCD, 0x44, 0x04]

/-- The response of S1: `Ok ([01 23 AB CD], 4, 14)`. -/
def s1Ok : Response := ⟨.ok, some [(0, 0x01), (1, 0x23), (2, 0xAB), (3, 0xCD)], some 4, some 4, some 14, none⟩

/-- V34c. -/
theorem test_enc_V34c :
    delivered (serving 0b01 [0x01, 0x23, 0xAB, 0xCD] 0) =
      some ⟨.ok, some [(0, 0xA5), (1, 0x5A), (2, 0x80), (3, 0x04), (4, 0xA0), (5, 0x01), (6, 0x23), (7, 0xAB),
        (8, 0xCD), (9, 0x44), (10, 0x04)], some 11, none, none, none⟩ := by decide

/-- V37. -/
theorem test_enc_V37 :
    delivered (serving 0b01 [] 0) =
      some ⟨.failed (.encode .emptyPayload), none, none, none, none, none⟩ := by decide

/-- S1. -/
theorem test_scan_S1 : delivered (serving 0b10 s1 0) = some s1Ok := by decide

/-- V25: a false header blocks the valid frame behind it. -/
theorem test_scan_V25 :
    delivered (serving 0b10 [0xA5, 0x5A, 0x00, 0xA5, 0x5A, 0x80, 0x01, 0xA0, 0x77, 0x77, 0x04] 0) =
      some ⟨.failed (.decode .missingLengthFlag), none, none, none, none, none⟩ := by decide

/-- V44. -/
theorem test_csum_V44 :
    delivered (serving 0b11 [0x01, 0x23, 0xAB, 0xCD] 0) = some ⟨.ok, none, none, none, none, some 0x44⟩ := by decide

/-- V40: not `Ok 00`. -/
theorem test_csum_V40 :
    delivered (serving 0b11 [] 0) = some ⟨.failed (.csum .emptyInput), none, none, none, none, none⟩ := by decide

/-- S1, steps 4 to 7, at the prefix. -/
theorem test_framePrefix_S1 :
    nextOf (step (atCursor s1 0 4)) = some (atSuffix s1 4 4 [0x01, 0x23, 0xAB, 0xCD] 0x44) := by decide

/-- S1, steps 8 to 10, at the suffix. -/
theorem test_frameSuffix_S1 : delivered (atSuffix s1 4 4 [0x01, 0x23, 0xAB, 0xCD] 0x44) = some s1Ok := by decide

/-- V20a at the suffix: the checksum byte one bit off. -/
theorem test_frameSuffix_V20a :
    delivered (atSuffix [0xA5, 0x5A, 0x80, 0x01, 0xA0, 0x55, 0x54, 0x04] 0 1 [0x55] 0x55) =
      some ⟨.failed (.decode .checksumMismatch), none, none, none, none, none⟩ := by decide

/-! ### Witnesses: encodings and the step -/

theorem witness_DecodeOfEncodeIsIdentity : (Instr.framePrefix 32767).wf = true := by decide
theorem witness_EncodeOfDecodeIsIdentity :
    decode (.frame [0xA5, 0x5A, 0xFF, 0xFF, 0xA0]) = .ok (.framePrefix 32767) := by decide

theorem witness_StepRunsSelectedOperation :
    (serving 0b11 [0x7E] 0).resetIn = false ∧ (serving 0b11 [0x7E] 0).requests = [requestOf 0b11 [0x7E] 0] ∧
    (serving 0b11 [0x7E] 0).work.pos = none ∧ decode (.op (requestOf 0b11 [0x7E] 0).op) = .ok .csum := by decide

/-- A prefix, then a suffix, stands at the cursor. -/
theorem witness_StepRunsPatternAtCursor_pattern :
    (memRead (requestOf 0b10 s1 0) 4 5 = .ok [0xA5, 0x5A, 0x80, 0x04, 0xA0] ∧
      decode (.frame [0xA5, 0x5A, 0x80, 0x04, 0xA0]) = .ok (.framePrefix 4) ∧
      (atCursor s1 0 4).work.takenPayload = false) ∧
    memRead (requestOf 0b10 s1 0) 13 2 = .ok [0x44, 0x04] ∧ decode (.frame [0x44, 0x04]) = .ok (.frameSuffix 0x44) ∧
      (atSuffix s1 4 4 [0x01, 0x23, 0xAB, 0xCD] 0x44).work.takenPayload = true := by decide

/-- At index 3 no prefix stands. -/
theorem witness_StepRunsPatternAtCursor_none :
    (atCursor s1 0 3).resetIn = false ∧ (atCursor s1 0 3).requests = [requestOf 0b10 s1 0] ∧
    (requestOf 0b10 s1 0).op = 0b10 ∧ (atCursor s1 0 3).work.pos = some 3 ∧
    memRead (requestOf 0b10 s1 0) 3 5 = .ok [0x32, 0xA5, 0x5A, 0x80, 0x04] ∧
    decode (.frame [0x32, 0xA5, 0x5A, 0x80, 0x04]) = .error .notPrefix := by decide

theorem witness_PlacedWordRunsNext :
    decodeTableWord 40 0xA55A8004A0 = some (.framePrefix 4) ∧ decodeTableWord 16 0x0004 = some (.frameSuffix 0x00) ∧
    decodeTableWord 8 1 = some .enc := by decide

theorem witness_ReservedOpRefused :
    (serving 0b00 [] 0).resetIn = false ∧ (serving 0b00 [] 0).requests = [requestOf 0b00 [] 0] ∧
    (requestOf 0b00 [] 0).op = 0b00 := by decide

theorem witness_OverlappingRequestRefused :
    (serving 0b01 [0x00] 0).resetIn = false ∧ (serving 0b01 [0x00] 0).requests ≠ [] := by decide

theorem witness_IdleStepDeliversNothing : State.reset.resetIn = false ∧ State.reset.requests = [] := by decide

/-- Two states that hold different responses, the same request pending. -/
theorem witness_ResponseDependsOnRequestAlone :
    let s := serving 0b11 [0x7E] 0
    let t : State := { s with response := some (failedWith (.csum .emptyInput)) }
    s.resetIn = false ∧ t.resetIn = false ∧ s.requests = [requestOf 0b11 [0x7E] 0] ∧
    t.requests = [requestOf 0b11 [0x7E] 0] ∧ s.work = Work.idle ∧ t.work = Work.idle ∧ s.response ≠ t.response ∧
    nextOf (step s) = some (answered s ⟨.ok, none, none, none, none, some 0x7E⟩) := by decide

theorem requestOk_of_short {op : BitVec 2} {bs : List Byte} {off : Nat} (h : bs.length ≤ 255) (ho : off ≤ 255) :
    RequestOk (requestOf op bs off) :=
  ⟨Memory.ofBytes_filled bs, Config.le_bufMax h, Config.lt_two_pow_idxW ho⟩

/-- P1's two requests. -/
theorem witness_RequestsAnsweredInOrder :
    ∀ r ∈ [requestOf 0b01 [0x48, 0x69] 0, requestOf 0b10 [0xA5, 0x5A, 0x80, 0x02, 0xA0, 0x48, 0x69, 0x21, 0x04] 0],
      RequestOk r ∧ r.op ≠ 0b00 := by
  intro r hr
  simp only [List.mem_cons, List.not_mem_nil, or_false] at hr
  rcases hr with rfl | rfl
  · exact ⟨requestOk_of_short (by decide) (by decide), by decide⟩
  · exact ⟨requestOk_of_short (by decide) (by decide), by decide⟩

/-! ### Witnesses: ENC -/

/-- 128 bytes; 1 byte; 127 bytes. -/
theorem witness_EncProducesFrame :
    127 < (List.replicate 128 (0x00 : Byte)).length ∧ 1 ≤ ([0x00] : List Byte).length ∧
    (List.replicate 127 (0x00 : Byte)).length ≤ 127 := by simp

theorem witness_EncFrameLayout :
    (serving 0b01 [0xFF] 0).requests = [requestOf 0b01 [0xFF] 0] ∧ 1 ≤ ([0xFF] : List Byte).length ∧
    ([0xFF] : List Byte).length ≤ 127 := by decide

/-- V30: an ENC that completes. -/
theorem witness_EncIsInjective :
    EncGives [0x00] ⟨.ok, some (Memory.ofBytes [0xA5, 0x5A, 0x80, 0x01, 0xA0, 0x00, 0x00, 0x04]), some 8, none, none,
      none⟩ := by
  intro s op off h
  show execEnc s = _
  rw [execEnc, onRequest_single h, encodeRequest, if_neg (by simp [encMinPayload]), if_neg (by simp [encMaxPayload])]
  simp only [requestOf_inLen, List.length_singleton]
  rfl

theorem witness_EncodeThenScanGivesPayload :
    State.reset.resetIn = false ∧ State.reset.requests = [] ∧ State.reset.work = Work.idle ∧
    1 ≤ ([0x48, 0x69] : List Byte).length ∧ ([0x48, 0x69] : List Byte).length ≤ 127 := by decide

/-! ### Witnesses: SCAN -/

/-- V12b's and V10's bounds: `OFFSET = L`, and seven bytes left. -/
theorem witness_ScanBoundsPrecheck :
    ([0xA5] : List Byte).length ≤ 1 ∧ 0 < ([0xA5, 0x5A, 0x80, 0x01, 0xA0, 0x00, 0x00] : List Byte).length ∧
    ([0xA5, 0x5A, 0x80, 0x01, 0xA0, 0x00, 0x00] : List Byte).length - 0 ≤ 7 := by decide

theorem witness_ScanSearchesFirstHeader : 0 + 8 ≤ s1.length := by decide

/-- No header pair before the one at the given index, tested one by one. -/
theorem firstHeader_of_tested {bs : List Byte} {off h : Nat} (h0 : off ≤ h) (hp : HeaderPair bs h)
    (hn : ∀ i < h, off ≤ i → ¬ (bs[i]? = some 0xA5 ∧ bs[i + 1]? = some 0x5A)) : FirstHeader bs off h :=
  ⟨h0, hp, fun i a b => hn i b a⟩

/-- V15e's buffer: the header stands at `L − 4`. -/
theorem witness_ScanTruncatedLengthOrMarker :
    0 + 8 ≤ ([0x00, 0x00, 0x00, 0x00, 0x00, 0xA5, 0x5A, 0x80, 0x01] : List Byte).length ∧
    FirstHeader [0x00, 0x00, 0x00, 0x00, 0x00, 0xA5, 0x5A, 0x80, 0x01] 0 5 :=
  ⟨by decide, firstHeader_of_tested (by decide) ⟨rfl, rfl⟩ (by decide)⟩

theorem s1_header : HeaderPassed s1 0 4 :=
  ⟨by decide, firstHeader_of_tested (by decide) ⟨rfl, rfl⟩ (by decide), by decide⟩

theorem s1_prefix : PrefixPassed s1 0 4 4 := ⟨s1_header, 0x80, 0x04, by decide⟩

/-- A header at index 0 of a buffer of at least eight bytes. -/
theorem headerPassed_zero {bs : List Byte} (h : 8 ≤ bs.length) (hp : HeaderPair bs 0) : HeaderPassed bs 0 0 :=
  ⟨by omega, ⟨le_rfl, hp, fun i _ hi => by omega⟩, by omega⟩

/-- S1 has the flag, V16a has not. -/
theorem witness_ScanMissingLengthFlag :
    (HeaderPassed s1 0 4 ∧ s1[4 + 2]? = some 0x80) ∧
    HeaderPassed [0xA5, 0x5A, 0x00, 0x01, 0xA0, 0xAA, 0xAA, 0x04] 0 0 :=
  ⟨⟨s1_header, rfl⟩, headerPassed_zero (by decide) ⟨rfl, rfl⟩⟩

/-- V17a: the length bytes `80 00`. -/
theorem witness_ScanZeroLength :
    HeaderPassed [0xA5, 0x5A, 0x80, 0x00, 0xA0, 0x00, 0x04, 0x00] 0 0 ∧
    ([0xA5, 0x5A, 0x80, 0x00, 0xA0, 0x00, 0x04, 0x00] : List Byte)[0 + 2]? = some 0x80 ∧
    ([0xA5, 0x5A, 0x80, 0x00, 0xA0, 0x00, 0x04, 0x00] : List Byte)[0 + 3]? = some 0x00 ∧ (0x80 : Byte) &&& 0x80 ≠ 0 :=
  ⟨headerPassed_zero (by decide) ⟨rfl, rfl⟩, by decide⟩

/-- V18a: the marker one bit off. -/
theorem witness_ScanMissingMarker :
    HeaderPassed [0xA5, 0x5A, 0x80, 0x01, 0xA1, 0x55, 0x55, 0x04] 0 0 ∧
    ([0xA5, 0x5A, 0x80, 0x01, 0xA1, 0x55, 0x55, 0x04] : List Byte)[0 + 4]? = some 0xA1 ∧
    (0x80 : Byte) &&& 0x80 ≠ 0 ∧ (0x80 : Byte).toNat % 128 * 256 + (0x01 : Byte).toNat ≠ 0 :=
  ⟨headerPassed_zero (by decide) ⟨rfl, rfl⟩, by decide⟩

/-- V19a: the footer is missing; S1 fits exactly. -/
theorem witness_ScanTruncatedPayload :
    PrefixPassed [0xA5, 0x5A, 0x80, 0x02, 0xA0, 0x11, 0x22, 0x33] 0 0 2 ∧ PrefixPassed s1 0 4 4 ∧
    s1.length - (4 + 4) = 4 + 3 :=
  ⟨⟨headerPassed_zero (by decide) ⟨rfl, rfl⟩, 0x80, 0x02, by decide⟩, s1_prefix, by decide⟩

/-- V20a: the checksum byte one bit off. -/
theorem witness_ScanChecksumMismatch :
    PrefixPassed [0xA5, 0x5A, 0x80, 0x01, 0xA0, 0x55, 0x54, 0x04] 0 0 1 ∧
    1 + 3 ≤ ([0xA5, 0x5A, 0x80, 0x01, 0xA0, 0x55, 0x54, 0x04] : List Byte).length - (0 + 4) ∧
    ([0xA5, 0x5A, 0x80, 0x01, 0xA0, 0x55, 0x54, 0x04] : List Byte)[0 + 5 + 1]? = some 0x54 :=
  ⟨⟨headerPassed_zero (by decide) ⟨rfl, rfl⟩, 0x80, 0x01, by decide⟩, by decide⟩

/-- V21a: the footer one bit off. -/
theorem witness_ScanMissingFooter :
    PrefixPassed [0xA5, 0x5A, 0x80, 0x01, 0xA0, 0x55, 0x55, 0x05] 0 0 1 ∧
    1 + 3 ≤ ([0xA5, 0x5A, 0x80, 0x01, 0xA0, 0x55, 0x55, 0x05] : List Byte).length - (0 + 4) ∧
    ([0xA5, 0x5A, 0x80, 0x01, 0xA0, 0x55, 0x55, 0x05] : List Byte)[0 + 5 + 1]? = some 0x55 ∧
    xorSum ((([0xA5, 0x5A, 0x80, 0x01, 0xA0, 0x55, 0x55, 0x05] : List Byte).drop (0 + 5)).take 1) ^^^ 0x55 = 0 ∧
    ([0xA5, 0x5A, 0x80, 0x01, 0xA0, 0x55, 0x55, 0x05] : List Byte)[0 + 6 + 1]? = some 0x05 :=
  ⟨⟨headerPassed_zero (by decide) ⟨rfl, rfl⟩, 0x80, 0x01, by decide⟩, by decide⟩

theorem witness_ScanSucceeds :
    (serving 0b10 s1 0).requests = [requestOf 0b10 s1 0] ∧ (serving 0b10 s1 0).work = Work.idle ∧
    PrefixPassed s1 0 4 4 ∧ 4 + 3 ≤ s1.length - (4 + 4) ∧ s1[4 + 5 + 4]? = some 0x44 ∧
    xorSum ((s1.drop (4 + 5)).take 4) ^^^ 0x44 = 0 ∧ s1[4 + 6 + 4]? = some 0x04 :=
  ⟨rfl, rfl, s1_prefix, by decide⟩

/-- S1 as a found frame; and V25's failure of class (c). -/
theorem s1_found : ScanFinds s1 0 [0x01, 0x23, 0xAB, 0xCD] 4 := by
  intro s op h hw
  show execScan s = _
  rw [execScan, onRequest_single h, hw]
  rfl

theorem witness_AppendedBytesChangeNoFinalAnswer :
    ScanGives [0xA5, 0x5A, 0x00, 0x01, 0xA0, 0xAA, 0xAA, 0x04] 0 (failedWith (.decode .missingLengthFlag)) ∧
    failureClass (.decode .missingLengthFlag) = some .mismatch ∧ ScanFinds s1 0 [0x01, 0x23, 0xAB, 0xCD] 4 := by
  refine ⟨?_, rfl, s1_found⟩
  intro s op h hw
  show execScan s = _
  rw [execScan, onRequest_single h, hw]
  rfl

/-- V23: the offsets 0 and 4 of S1. -/
theorem witness_OffsetBeforeHeaderGivesSameAnswer : FirstHeader s1 0 4 ∧ 0 ≤ 4 ∧ 4 ≤ 4 ∧ 4 + 8 ≤ s1.length :=
  ⟨s1_header.2.1, by decide⟩

/-- Noise that ends in a lone `A5` (P2). -/
theorem witness_ScanToleratesNoise : (∀ i, ¬ HeaderPair [0xA5] i) ∧ 1 ≤ ([0x7E] : List Byte).length :=
  ⟨fun i h => by simpa using h.2, by decide⟩

/-- The three ranges of the cut at their ends, for the one-byte payload: 0, 1 to 7; and 8 for two bytes. -/
theorem witness_ScanOfCutFrame :
    1 ≤ ([0x7E] : List Byte).length ∧ 0 < ([0x7E] : List Byte).length + 7 ∧ 7 < ([0x7E] : List Byte).length + 7 ∧
    8 < ([0x11, 0x22] : List Byte).length + 7 := by decide

/-- The highest bit of the last byte. -/
theorem witness_PayloadBitFlipDetected :
    1 ≤ ([0x11, 0x22] : List Byte).length ∧ ([0x11, 0x22] : List Byte)[1]? = some 0x22 ∧ 7 < 8 := by decide

theorem witness_ScanPayloadWithinBounds : ScanFinds s1 0 [0x01, 0x23, 0xAB, 0xCD] 4 := s1_found

/-- V25b: from one and from two past the failed header. -/
theorem witness_RetryPassesFailedHeader :
    FirstHeader [0xA5, 0x5A, 0x00, 0xA5, 0x5A, 0x80, 0x01, 0xA0, 0x77, 0x77, 0x04] 0 0 ∧
    0 + 2 + 8 ≤ ([0xA5, 0x5A, 0x00, 0xA5, 0x5A, 0x80, 0x01, 0xA0, 0x77, 0x77, 0x04] : List Byte).length :=
  ⟨firstHeader_of_tested (by decide) ⟨rfl, rfl⟩ (by decide), by decide⟩

/-- The frame ends S1's buffer; with one and with seven bytes more it does not. -/
theorem witness_NextOffsetAfterSuccess :
    ScanFinds s1 0 [0x01, 0x23, 0xAB, 0xCD] 4 ∧ s1.length = 4 + 7 + 4 ∧
    ScanFinds (s1 ++ [0x00]) 0 [0x01, 0x23, 0xAB, 0xCD] 4 ∧ 4 + 7 + 4 < (s1 ++ [0x00]).length ∧
    ScanFinds (s1 ++ List.replicate 7 0x00) 0 [0x01, 0x23, 0xAB, 0xCD] 4 ∧
    (s1 ++ List.replicate 7 0x00).length = 4 + 14 + 4 := by
  refine ⟨s1_found, by decide, ?_, by decide, ?_, by decide⟩ <;>
    (intro s op h hw; show execScan s = _; rw [execScan, onRequest_single h, hw]; rfl)

/-! ### Witnesses: CSUM, the response, the wire-frame patterns -/

theorem witness_CsumReducesByXor : (serving 0b11 [0x7E] 0).requests = [requestOf 0b11 [0x7E] 0] := by decide

/-- V44 as an answer of CSUM in every state: for the parity, the order and the own checksum. -/
theorem csum_V44 : CsumGives [0x01, 0x23, 0xAB, 0xCD] ⟨.ok, none, none, none, none, some 0x44⟩ := by
  intro s op off h
  show execCsum s = _
  rw [execCsum, onRequest_single h]
  rfl

theorem witness_CsumBitIsParity : CsumGives [0x01, 0x23, 0xAB, 0xCD] ⟨.ok, none, none, none, none, some 0x44⟩ :=
  csum_V44

theorem witness_CsumIgnoresOrder :
    ([0x01, 0x23, 0xAB, 0xCD] : List Byte).Perm [0xCD, 0xAB, 0x23, 0x01] ∧
    CsumGives [0x01, 0x23, 0xAB, 0xCD] ⟨.ok, none, none, none, none, some 0x44⟩ := ⟨by decide, csum_V44⟩

theorem witness_CsumWithOwnChecksumIsZero :
    CsumGives [0x01, 0x23, 0xAB, 0xCD] ⟨.ok, none, none, none, none, some 0x44⟩ := csum_V44

theorem witness_FailureLeavesOnlyStatus :
    nextOf (exec .csum (serving 0b11 [] 0)) = some (answered (serving 0b11 [] 0) (failedWith (.csum .emptyInput))) ∧
    (failedWith (.csum .emptyInput)).status ≠ .ok := by decide

/-- No response; and a response with and without each field. -/
theorem witness_ReadOfAbsentFieldFaults :
    State.reset.response = none ∧ (answered State.reset s1Ok).response = some s1Ok ∧
    readField (answered State.reset s1Ok) .hdrIdx = .ok (.index 4) ∧
    readField (answered State.reset s1Ok) .csum = .error .absentField := by decide

/-- One instruction that ends the operation, and one that leaves it in progress. -/
theorem witness_InstructionsChangeNothingElse :
    (nextOf (exec .scan (serving 0b10 s1 0))).isSome = true ∧
    (nextOf (exec (.framePrefix 4) (atCursor s1 0 4))).isSome = true := by decide

theorem witness_FramePrefixTakesPayload :
    (atCursor s1 0 4).requests = [requestOf 0b10 s1 0] ∧ 4 = (atCursor s1 0 4).work.pos.getD 0 ∧ 1 ≤ 4 ∧
    4 + 7 + 4 ≤ s1.length := by decide

/-- Length zero; and a length one too large for S1's buffer. -/
theorem witness_FramePrefixFailures :
    (atCursor s1 0 4).requests = [requestOf 0b10 s1 0] ∧ 4 = (atCursor s1 0 4).work.pos.getD 0 ∧
    s1.length - (4 + 4) < 5 + 3 := by decide

theorem witness_FrameSuffixEndsOperation :
    (atSuffix s1 4 4 [0x01, 0x23, 0xAB, 0xCD] 0x44).requests = [requestOf 0b10 s1 0] ∧
    (atSuffix s1 4 4 [0x01, 0x23, 0xAB, 0xCD] 0x44).work =
      ⟨some 13, some 4, some 4, some [0x01, 0x23, 0xAB, 0xCD], some 0x44⟩ ∧ (0x44 : Byte) ≠ 0x45 := by decide

theorem witness_NothingToActOnRefused :
    State.reset.requests = [] ∧
    (issue (serving 0b01 [] 0) (requestOf 0b11 [] 0)).requests = [requestOf 0b01 [] 0, requestOf 0b11 [] 0] ∧
    (serving 0b10 s1 0).requests = [requestOf 0b10 s1 0] ∧ (serving 0b10 s1 0).work.takenPayload = false := by decide

/-- S1 with the cursor at index 2. -/
theorem witness_PatternMovesAgreeWithScan :
    (serving 0b10 s1 0).resetIn = false ∧ (serving 0b10 s1 0).requests = [requestOf 0b10 s1 0] ∧
    (serving 0b10 s1 0).work = Work.idle ∧ 0 + 8 ≤ s1.length ∧ FirstHeader s1 0 4 ∧ 0 ≤ 2 ∧ 2 ≤ 4 ∧
    nextOf (step (serving 0b10 s1 0)) = some (answered (serving 0b10 s1 0) s1Ok) :=
  ⟨rfl, rfl, rfl, by decide, s1_header.2.1, by decide, by decide, by decide⟩

/-! ### Witnesses: the invariant -/

theorem inv_serving {op : BitVec 2} {bs : List Byte} {off : Nat} (h : bs.length ≤ 255) (ho : off ≤ 255) :
    Inv (serving op bs off) :=
  ⟨fun r hr => by
      rw [serving, List.mem_singleton] at hr
      exact hr ▸ requestOk_of_short h ho,
    (fun _ hx => nomatch hx), (fun hr => nomatch hr), fun _ _ => .inl rfl⟩

/-- A well-formed state in which a SCAN completes. -/
theorem witness_StepKeepsInvariant :
    Inv (serving 0b10 s1 0) ∧
    nextOf (step (serving 0b10 s1 0)) = some (answered (serving 0b10 s1 0) s1Ok) :=
  ⟨inv_serving (by decide) (by decide), by decide⟩

/-- A well-formed state with a SCAN in progress, its payload taken. -/
theorem witness_StepKeepsInvariant_inProgress : Inv (atSuffix s1 4 4 [0x01, 0x23, 0xAB, 0xCD] 0x44) :=
  ⟨fun r hr => by
      rw [atSuffix, List.mem_singleton] at hr
      exact hr ▸ requestOk_of_short (by decide) (by decide),
    (fun _ hx => nomatch hx), (fun hr => nomatch hr),
    fun r hr => by
      have : requestOf 0b10 s1 0 = r := by simpa [atSuffix] using hr
      subst this
      exact .inr ⟨rfl, .inr ⟨4, 4, _, _, rfl, by decide⟩⟩⟩

theorem witness_HostMovesKeepInvariant :
    Inv State.reset ∧ RequestOk (requestOf 0b10 s1 0) ∧ State.reset.requests = [] :=
  ⟨⟨(fun _ hr => nomatch hr), (fun _ hx => nomatch hx), fun _ => rfl, (fun _ hr => nomatch hr)⟩,
    requestOk_of_short (by decide) (by decide), rfl⟩

theorem witness_NoStepFaults : Inv (serving 0b01 [0x00] 0) := inv_serving (by decide) (by decide)

theorem witness_EveryOperationAnswers :
    (serving 0b10 s1 0).resetIn = false ∧ (serving 0b10 s1 0).requests = [requestOf 0b10 s1 0] ∧
    (serving 0b10 s1 0).work = Work.idle ∧ RequestOk (requestOf 0b10 s1 0) ∧ (requestOf 0b10 s1 0).op ≠ 0b00 :=
  ⟨rfl, rfl, rfl, requestOk_of_short (by decide) (by decide), by decide⟩

end Sys2Proof.Tests
end

/-! ### What an instruction answers: laws shared by the state statements -/

namespace Sys2Proof.Machine

/-- A sequence of computations ends well only if its parts do. -/
theorem bind_eq_ok {α β : Type} {x : Except Stop α} {f : α → Except Stop β} {b : β} (h : (x >>= f) = .ok b) :
    ∃ a, x = .ok a ∧ f a = .ok b := by
  cases x with
  | error e => cases h
  | ok a => exact ⟨a, rfl, h⟩

/-! #### The meanings on the one pending request -/

section
variable {s : State} {r : Request} (hreq : s.requests = [r])
include hreq

theorem exec_enc_eq : exec .enc s = conclude s (encodeRequest r) := onRequest_single hreq _

theorem exec_scan_eq : exec .scan s = conclude s (scanRest r s.work) := onRequest_single hreq _

theorem exec_csum_eq : exec .csum s = conclude s (checksumRequest r) := onRequest_single hreq _

end

/-- The end of an operation reads nothing of the state but the reset input, which it keeps. -/
theorem conclude_congr {s t : State} (h : s.resetIn = t.resetIn) (e : Except Stop Response) :
    conclude s e = conclude t e := by
  match e with
  | .ok x => simp [answered, h]
  | .error (.raise f) => simp [answered, h]
  | .error (.fault _) => rfl

/-- An operation `OP` selects ends with what the request and the working values alone determine (R20). -/
theorem exec_selected_eq_conclude {v : BitVec 2} {i : Instr} (hi : decode (.op v) = .ok i) (r : Request) (w : Work) :
    ∃ e, ∀ s : State, s.requests = [r] → s.work = w → exec i s = conclude s e := by
  rcases decodeOp_cases v with ⟨-, h⟩ | ⟨-, h⟩ | ⟨-, h⟩ | ⟨-, h⟩ <;> rw [h] at hi
  · cases hi
  · cases hi
    exact ⟨encodeRequest r, fun s hreq _ => exec_enc_eq hreq⟩
  · cases hi
    exact ⟨scanRest r w, fun s hreq hw => hw ▸ exec_scan_eq hreq⟩
  · cases hi
    exact ⟨checksumRequest r, fun s hreq _ => exec_csum_eq hreq⟩

/-- The response `x` with which instruction `i` succeeds on the request `r` with the working values `w`.
`FRAME.PREFIX` has none: it leaves its operation in progress (assumption 7). -/
def SucceedsWith (i : Instr) (r : Request) (w : Work) (x : Response) : Prop :=
  match i with
  | .enc => encodeRequest r = .ok x
  | .scan => scanRest r w = .ok x
  | .csum => checksumRequest r = .ok x
  | .framePrefix _ => False
  | .frameSuffix c => ∃ pos h n p, w = ⟨some pos, some h, some n, some p, some c⟩ ∧ x = scanSuccess h n p

/-- How an instruction `i` on the one pending request `r` can take the state `s` to `t`: it raises a failure, it
succeeds, or, for `FRAME.PREFIX`, it takes the payload and leaves the operation in progress. -/
inductive Moves (i : Instr) (r : Request) (s : State) : State → Prop
  | failed (f : Failure) : Moves i r s (answered s (failedWith f))
  | succeeded (x : Response) (hx : SucceedsWith i r s.work x) : Moves i r s (answered s x)
  | payloadTaken (n : Nat) (p : List Byte) (acc : Byte) (hi : i = .framePrefix n)
      (hp : prefixEffect r (s.work.pos.getD r.offset) n = .ok (p, acc)) :
      Moves i r s ⟨s.resetIn, s.requests, none, Work.atSuffix (s.work.pos.getD r.offset) n p acc⟩

theorem moves_of_conclude {i : Instr} {r : Request} {s t : State} {e : Except Stop Response}
    (he : ∀ x, e = .ok x → SucceedsWith i r s.work x) (h : conclude s e = .next t) : Moves i r s t := by
  rcases conclude_next h with ⟨x, hx, rfl⟩ | ⟨f, -, rfl⟩
  · exact .succeeded x (he x hx)
  · exact .failed f

/-- A checksum test that leads to a success passed (R110). -/
theorem verifyChecksum_eq_ok {acc c : Byte} {k : Except Stop Response} {x : Response}
    (h : verifyChecksum acc c k = .ok x) : acc = c ∧ k = .ok x := by
  rw [verifyChecksum_eq] at h
  split at h
  · exact ⟨‹_›, h⟩
  · cases h

/-- Everything an instruction that answers a next state can do. -/
theorem exec_next {i : Instr} {s t : State} (h : exec i s = .next t) : ∃ r, s.requests = [r] ∧ Moves i r s t := by
  cases i with
  | enc =>
    obtain ⟨r, hreq, h⟩ := onRequest_next h
    exact ⟨r, hreq, moves_of_conclude (fun _ hx => hx) h⟩
  | scan =>
    obtain ⟨r, hreq, h⟩ := onRequest_next h
    exact ⟨r, hreq, moves_of_conclude (fun _ hx => hx) h⟩
  | csum =>
    obtain ⟨r, hreq, h⟩ := onRequest_next h
    exact ⟨r, hreq, moves_of_conclude (fun _ hx => hx) h⟩
  | framePrefix n =>
    obtain ⟨r, hreq, h⟩ := onRequest_next h
    refine ⟨r, hreq, ?_⟩
    dsimp only at h
    split at h
    · rename_i p acc hp
      cases h
      exact .payloadTaken n p acc rfl hp
    · exact moves_of_conclude (fun _ hx => by cases hx) h
  | frameSuffix c =>
    obtain ⟨r, hreq, h⟩ := onRequest_next h
    refine ⟨r, hreq, ?_⟩
    split at h
    · rename_i pos h0 n p acc hw
      refine moves_of_conclude (fun x hx => ?_) h
      obtain ⟨rfl, hok⟩ := verifyChecksum_eq_ok hx
      exact ⟨pos, h0, n, p, hw, (Except.ok.inj hok).symm⟩
    · cases h

/-! #### What `fetch` selects -/

/-- Wire bytes that decode to `FRAME.PREFIX` are five, and its length has 15 bits (R62, R66). -/
theorem decode_frame_prefix {bytes : List Byte} {n : Nat} (h : decode (.frame bytes) = .ok (.framePrefix n)) :
    bytes.length = 5 ∧ n ≤ 32767 := by
  match bytes, h with
  | [b0, b1, b2, b3, b4], h =>
    refine ⟨rfl, ?_⟩
    change decodePrefix _ = _ at h
    rw [decodePrefix, prefixLength_eq, ← decodeLength_eq] at h
    split at h
    · cases h
      exact decodeLength_le b2 b3
    · cases h
  | [b0, b1], h =>
    change decodeSuffix _ = _ at h
    rw [decodeSuffix] at h
    split at h <;> cases h

/-- A pattern is found where the cursor stands, in the bytes read there. -/
theorem patternAtCursor_eq_some {r : Request} {w : Work} {i : Instr} (h : patternAtCursor r w = some i) :
    ∃ pos bytes, w.pos = some pos ∧ memRead r pos (patternLength w) = .ok bytes ∧ decode (.frame bytes) = .ok i := by
  unfold patternAtCursor at h
  split at h
  · cases h
  · rename_i pos hpos
    split at h
    · cases h
    · rename_i bytes hb
      split at h
      · rename_i j hj
        cases h
        exact ⟨pos, bytes, hpos, hb, hj⟩
      · cases h

/-- What is fetched is what `OP` selects, or, for a SCAN, the pattern at its cursor (R75, R79). -/
theorem fetch_eq_ok {r : Request} {w : Work} {i : Instr} (h : fetch r w = .ok i) :
    decode (.op r.op) = .ok i ∨ (r.op = 0b10 ∧ patternAtCursor r w = some i) := by
  unfold fetch at h
  rcases decodeOp_cases r.op with ⟨-, hd⟩ | ⟨-, hd⟩ | ⟨hop, hd⟩ | ⟨-, hd⟩ <;> rw [hd] at h
  · cases h
  · cases h
    exact .inl hd
  · cases hp : patternAtCursor r w with
    | none =>
      rw [hp] at h
      cases h
      exact .inl hd
    | some j =>
      rw [hp] at h
      cases h
      exact .inr ⟨hop, rfl⟩
  · cases h
    exact .inl hd

/-- `FRAME.PREFIX` is fetched only at the cursor of a SCAN that has not taken its payload. -/
theorem fetch_framePrefix {r : Request} {w : Work} {n : Nat} (h : fetch r w = .ok (.framePrefix n)) :
    r.op = 0b10 ∧ n ≤ 32767 ∧ w.takenPayload = false ∧ ∃ pos, w.pos = some pos := by
  rcases fetch_eq_ok h with hd | ⟨hop, hp⟩
  · rcases decodeOp_cases r.op with ⟨-, h'⟩ | ⟨-, h'⟩ | ⟨-, h'⟩ | ⟨-, h'⟩ <;>
      cases h'.symm.trans hd
  · obtain ⟨pos, bytes, hpos, hread, hdec⟩ := patternAtCursor_eq_some hp
    obtain ⟨hlen, hn⟩ := decode_frame_prefix hdec
    refine ⟨hop, hn, ?_, pos, hpos⟩
    have hl : patternLength w = 5 := (memRead_eq_ok hread).2.symm.trans hlen
    simpa [patternLength] using hl

/-- A SCAN that has not taken its payload has its cursor at `OFFSET` or behind it. -/
theorem WorkOk.offset_le_cursor {r : Request} {w : Work} {pos : Nat} (h : WorkOk r w) (hpos : w.pos = some pos)
    (ht : w.takenPayload = false) : r.offset ≤ pos := by
  rcases h with rfl | ⟨-, ⟨pos', rfl, hle, -⟩ | ⟨h, n, p, acc, rfl, -⟩⟩
  · cases hpos
  · cases hpos
    exact hle
  · cases ht

/-! #### What the pieces of an operation establish -/

/-- The payload `p` of a frame with its header at `h` has been taken: `n` bytes after the marker, the whole frame within
`IN` (R105, R108, R109). -/
structure FrameTaken (r : Request) (h n : Nat) (p : List Byte) : Prop where
  one_le : 1 ≤ n
  le_max : n ≤ 32767
  fits   : h + 6 + n < r.inLen
  read   : memRead r (h + 5) n = .ok p

theorem FrameTaken.length_eq {r : Request} {h n : Nat} {p : List Byte} (hf : FrameTaken r h n p) : p.length = n :=
  (memRead_eq_ok hf.read).2

/-- The length accepted behind a header has 1 to 32767 bytes (R105, R106). -/
theorem frameLength_eq_ok {r : Request} {h n : Nat} (e : frameLength r h = .ok n) : 1 ≤ n ∧ n ≤ 32767 := by
  unfold frameLength at e
  split at e
  · cases e
  obtain ⟨b2, -, e⟩ := bind_eq_ok e
  split at e
  · cases e
  obtain ⟨b3, -, e⟩ := bind_eq_ok e
  dsimp only at e
  split at e
  · cases e
  rename_i hn
  obtain ⟨b4, -, e⟩ := bind_eq_ok e
  split at e
  · cases e
  cases e
  exact ⟨Nat.one_le_iff_ne_zero.2 hn, decodeLength_le b2 b3⟩

/-- A payload is taken only when its whole frame fits (R108, R109). -/
theorem takePayload_eq_ok {r : Request} {h n : Nat} {p : List Byte} (e : takePayload r h n = .ok p) :
    h + 6 + n < r.inLen ∧ memRead r (h + 5) n = .ok p := by
  unfold takePayload at e
  split at e
  · cases e
  · exact ⟨by omega, e⟩

/-- `FRAME.PREFIX` with a 15-bit length that takes its payload leaves it and its checksum (R106, R108, R109). -/
theorem prefixEffect_eq_ok {r : Request} {h n : Nat} {p : List Byte} {acc : Byte} (hn : n ≤ 32767)
    (e : prefixEffect r h n = .ok (p, acc)) : FrameTaken r h n p ∧ csumOf p = .ok acc := by
  unfold prefixEffect at e
  split at e
  · cases e
  rename_i h0
  obtain ⟨p', hp, e⟩ := bind_eq_ok e
  obtain ⟨acc', hacc, e⟩ := bind_eq_ok e
  cases e
  obtain ⟨hfit, hread⟩ := takePayload_eq_ok hp
  exact ⟨⟨Nat.one_le_iff_ne_zero.2 h0, hn, hfit, hread⟩, hacc⟩

/-- SCAN's closing tests lead to no other success than that of the payload taken (R112). -/
theorem scanEnd_eq_ok {r : Request} {h n : Nat} {p : List Byte} {x : Response} (e : scanEnd r h n p = .ok x) :
    x = scanSuccess h n p := by
  obtain ⟨acc, -, e⟩ := bind_eq_ok e
  obtain ⟨c, -, e⟩ := bind_eq_ok e
  obtain ⟨f, -, e⟩ := bind_eq_ok (verifyChecksum_eq_ok e).2
  split at e
  · cases e
  · exact (Except.ok.inj e).symm

/-- SCAN succeeds at a header only with a frame that has been taken there. -/
theorem scanAt_eq_ok {r : Request} {h : Nat} {x : Response} (e : scanAt r h = .ok x) :
    ∃ n p, FrameTaken r h n p ∧ x = scanSuccess h n p := by
  obtain ⟨n, hlen, e⟩ := bind_eq_ok e
  obtain ⟨p, hp, e⟩ := bind_eq_ok e
  obtain ⟨h1, hmax⟩ := frameLength_eq_ok hlen
  obtain ⟨hfit, hread⟩ := takePayload_eq_ok hp
  exact ⟨n, p, ⟨h1, hmax, hfit, hread⟩, scanEnd_eq_ok e⟩

theorem scanFrom_eq_ok {r : Request} {pos : Nat} {x : Response} (e : scanFrom r pos = .ok x) :
    ∃ h n p, FrameTaken r h n p ∧ x = scanSuccess h n p := by
  obtain ⟨h, -, e⟩ := bind_eq_ok e
  exact ⟨h, scanAt_eq_ok e⟩

theorem scanRequest_eq_ok {r : Request} {x : Response} (e : scanRequest r = .ok x) :
    ∃ h n p, FrameTaken r h n p ∧ x = scanSuccess h n p := by
  unfold scanRequest at e
  split at e
  · cases e
  split at e
  · cases e
  · exact scanFrom_eq_ok e

/-- Working values with every value present are those of a frame that has been taken. -/
theorem WorkOk.frameTaken {r : Request} {pos h n : Nat} {p : List Byte} {acc : Byte}
    (hw : WorkOk r ⟨some pos, some h, some n, some p, some acc⟩) : FrameTaken r h n p := by
  rcases hw with e | ⟨-, ⟨_, e, -⟩ | ⟨_, _, _, _, e, -, h1, hmax, hfit, hread, -⟩⟩
  · cases e
  · cases e
  · cases e
    exact ⟨h1, hmax, hfit, hread⟩

/-- What is left of a SCAN with well-formed working values succeeds only with a frame that has been taken. -/
theorem scanRest_eq_ok {r : Request} {w : Work} {x : Response} (hw : WorkOk r w) (e : scanRest r w = .ok x) :
    ∃ h n p, FrameTaken r h n p ∧ x = scanSuccess h n p := by
  unfold scanRest at e
  split at e
  · exact ⟨_, _, _, hw.frameTaken, scanEnd_eq_ok e⟩
  · exact scanFrom_eq_ok e
  · exact scanRequest_eq_ok e

/-! #### Responses are well-formed -/

theorem responseOk_failedWith (f : Failure) : ResponseOk (failedWith f) := ⟨rfl, rfl, rfl, rfl, rfl⟩

/-- The fields ENC writes one after the other make the frame's bytes, from index 0 on (R49, R90). -/
theorem encFrame_eq_ofBytes {n : Nat} {p : List Byte} (hp : p.length = n) (c : Byte) :
    encFrame n p c = Memory.ofBytes ([hdr0, hdr1, lenHi n, lenLo n, marker] ++ p ++ [c, footer]) := by
  simp (disch := simp [hp] <;> omega) only [encFrame, memWrite_nil, memWrite_ofBytes_end]
  simp

/-- ENC's frame is a sequence of `N + 7` bytes (R61). -/
theorem encFrame_filled {n : Nat} {p : List Byte} (hp : p.length = n) (c : Byte) :
    (encFrame n p c).filled (n + 7) := by
  rw [encFrame_eq_ofBytes hp]
  have := Memory.ofBytes_filled ([hdr0, hdr1, lenHi n, lenLo n, marker] ++ p ++ [c, footer])
  simpa [hp, Nat.add_comm, Nat.add_left_comm] using this

theorem responseOk_encodeRequest {r : Request} {x : Response} (e : encodeRequest r = .ok x) : ResponseOk x := by
  unfold encodeRequest at e
  split at e
  · cases e
  rename_i hmin
  split at e
  · cases e
  rename_i hmax
  obtain ⟨p, hp, e⟩ := bind_eq_ok e
  obtain ⟨c, -, e⟩ := bind_eq_ok e
  cases e
  simp only [encMinPayload, encMaxPayload, not_lt] at hmin hmax
  exact .inl ⟨_, r.inLen + 7, rfl, encFrame_filled (memRead_eq_ok hp).2 c, by omega, by omega⟩

theorem responseOk_checksumRequest {r : Request} {x : Response} (e : checksumRequest r = .ok x) : ResponseOk x := by
  unfold checksumRequest at e
  split at e
  · cases e
  obtain ⟨bs, -, e⟩ := bind_eq_ok e
  obtain ⟨c, -, e⟩ := bind_eq_ok e
  cases e
  exact .inr (.inr ⟨c, rfl⟩)

/-- The success of a frame taken from a request that fits the interface is well-formed (R112). -/
theorem FrameTaken.responseOk_scanSuccess {r : Request} {h n : Nat} {p : List Byte} (hf : FrameTaken r h n p)
    (hr : RequestOk r) : ResponseOk (scanSuccess h n p) := by
  refine .inr (.inl ⟨memWrite [] 0 p, n, h, rfl, ?_, hf.one_le, hf.le_max, lt_of_lt_of_le hf.fits hr.inLen_le⟩)
  rw [memWrite_nil, ← hf.length_eq]
  exact Memory.ofBytes_filled p

/-- Every success is well-formed when the request and the working values are. -/
theorem SucceedsWith.responseOk {i : Instr} {r : Request} {w : Work} {x : Response} (h : SucceedsWith i r w x)
    (hr : RequestOk r) (hw : WorkOk r w) : ResponseOk x := by
  cases i with
  | enc => exact responseOk_encodeRequest h
  | scan =>
    obtain ⟨_, _, _, hf, rfl⟩ := scanRest_eq_ok hw h
    exact hf.responseOk_scanSuccess hr
  | csum => exact responseOk_checksumRequest h
  | framePrefix n => exact h.elim
  | frameSuffix c =>
    obtain ⟨_, _, _, _, rfl, rfl⟩ := h
    exact hw.frameTaken.responseOk_scanSuccess hr

/-! #### The invariant -/

/-- An idle block meets the invariant once its response, if there is one, is well-formed. -/
theorem inv_of_idle {s : State} (hreq : s.requests = []) (hw : s.work = Work.idle)
    (hx : ∀ x, s.response = some x → ResponseOk x) : Inv s where
  requests r hr := by simp [hreq] at hr
  response := hx
  idle _ := hw
  work r hr := by simp [hreq] at hr

/-- The end of an operation with a well-formed response meets the invariant. -/
theorem inv_answered (s : State) {x : Response} (h : ResponseOk x) : Inv (answered s x) :=
  inv_of_idle rfl rfl fun _ hy => Option.some.inj hy ▸ h

/-- A block with one pending request meets the invariant once the request, its working values and the response are
well-formed. -/
theorem inv_of_single {s : State} {r : Request} (hreq : s.requests = [r]) (hr : RequestOk r) (hw : WorkOk r s.work)
    (hx : ∀ x, s.response = some x → ResponseOk x) : Inv s where
  requests r' h := by
    rw [hreq, List.mem_singleton] at h
    exact h ▸ hr
  response := hx
  idle h := by simp [hreq] at h
  work r' h := by
    rw [hreq, List.singleton_inj] at h
    exact h ▸ hw

/-- The working values `FRAME.PREFIX` leaves belong to the request it was fetched for. -/
theorem workOk_atSuffix {r : Request} {w : Work} {n : Nat} {p : List Byte} {acc : Byte} (hw : WorkOk r w)
    (hf : fetch r w = .ok (.framePrefix n)) (hp : prefixEffect r (w.pos.getD r.offset) n = .ok (p, acc)) :
    WorkOk r (Work.atSuffix (w.pos.getD r.offset) n p acc) := by
  obtain ⟨hop, hn, ht, pos, hpos⟩ := fetch_framePrefix hf
  obtain ⟨hframe, hacc⟩ := prefixEffect_eq_ok hn hp
  have hle : r.offset ≤ w.pos.getD r.offset := by
    rw [hpos]
    exact hw.offset_le_cursor hpos ht
  exact .inr ⟨hop, .inr ⟨_, n, p, acc, rfl, hle, hframe.one_le, hframe.le_max, hframe.fits, hframe.read, hacc⟩⟩

/-- The fetched instruction keeps the invariant. -/
theorem Moves.inv {i : Instr} {r : Request} {s t : State} (hm : Moves i r s t) (hs : Inv s) (hreq : s.requests = [r])
    (hf : fetch r s.work = .ok i) : Inv t := by
  have hr : RequestOk r := hs.requests r (by simp [hreq])
  have hw : WorkOk r s.work := hs.work r hreq
  cases hm with
  | failed f => exact inv_answered s (responseOk_failedWith f)
  | succeeded x hx => exact inv_answered s (hx.responseOk hr hw)
  | payloadTaken n p acc hi hp =>
    subst hi
    exact inv_of_single hreq hr (workOk_atSuffix hw hf hp) fun _ hx => nomatch hx

/-! ### The statements about the state settled -/

/-- Settles O12: each field by definition of `State.reset`. -/
theorem resetStateIsIdle : Obligations.ResetStateIsIdle := ⟨rfl, rfl, rfl, rfl⟩

/-- Settles O6: with no cursor set, `fetch` selects what `OP` decodes to. -/
theorem stepRunsSelectedOperation : Obligations.StepRunsSelectedOperation := by
  intro s r i hreset hreq hpos hi
  have hf : fetch r s.work = .ok i := by rw [fetch_idle hpos, hi]
  exact step_fetched hreset hreq hf

/-- Settles O14: both states fetch the same operation, and how it ends is a function of the request. -/
theorem responseDependsOnRequestAlone : Obligations.ResponseDependsOnRequestAlone := by
  intro s t u r hs ht hsr htr hsw htw hu
  rcases step_next hu with ⟨hreset, -⟩ | ⟨-, hnil, -⟩ | ⟨-, r', i, hr', hf, hexec⟩
  · simp [hs] at hreset
  · simp [hsr] at hnil
  · obtain rfl : r = r' := by simpa [hsr] using hr'
    rw [hsw] at hf
    have hi : decode (.op r.op) = .ok i := by
      rcases fetch_eq_ok hf with hi | ⟨-, hp⟩
      · exact hi
      · cases hp
    obtain ⟨e, he⟩ := exec_selected_eq_conclude hi r Work.idle
    have hend : conclude s e = .next u := (he s hsr hsw).symm.trans hexec
    have hstep : step t = .next u := by
      rw [step_fetched ht htr (htw ▸ hf), he t htr htw, ← conclude_congr (hs.trans ht.symm), hend]
    rcases conclude_next hend with ⟨x, -, rfl⟩ | ⟨f, -, rfl⟩
    · exact ⟨hstep, rfl, rfl⟩
    · exact ⟨hstep, rfl, rfl⟩

/-- Settles O48, by the three ways an instruction moves the state. -/
theorem instructionsChangeNothingElse : Obligations.InstructionsChangeNothingElse := by
  intro i s t h
  obtain ⟨r, -, hm⟩ := exec_next h
  cases hm with
  | failed f => exact .inl ⟨_, rfl⟩
  | succeeded x _ => exact .inl ⟨x, rfl⟩
  | payloadTaken n _ _ hi _ => exact .inr ⟨⟨n, hi⟩, rfl, rfl, rfl⟩

/-- Settles O54: the reset state is idle and holds no response. -/
theorem resetMeetsInvariant : Obligations.ResetMeetsInvariant := inv_of_idle rfl rfl fun _ hx => nomatch hx

/-- Settles O56: the request issued to an idle block has no working values; the invariant does not read the reset
input. -/
theorem hostMovesKeepInvariant : Obligations.HostMovesKeepInvariant := by
  intro s r hs
  refine ⟨fun hr hidle => ?_, ⟨hs.requests, hs.response, hs.idle, hs.work⟩⟩
  have hreq : (issue s r).requests = [r] := by simp [hidle]
  exact inv_of_single hreq hr (.inl (hs.idle hidle)) hs.response

/-- Settles O55, by what a step can be: a reset, an idle step, or the fetched instruction's move. -/
theorem stepKeepsInvariant : Obligations.StepKeepsInvariant := by
  intro s t hs h
  rcases step_next h with ⟨-, rfl⟩ | ⟨-, hreq, rfl⟩ | ⟨-, r, i, hreq, hf, hexec⟩
  · exact resetMeetsInvariant
  · exact inv_of_idle hreq rfl fun _ hx => nomatch hx
  · obtain ⟨r', hreq', hm⟩ := exec_next hexec
    obtain rfl : r = r' := by simpa [hreq] using hreq'
    exact hm.inv hs hreq hf

end Sys2Proof.Machine

/-! ### No step faults: what each operation reads stands in `IN`, and no checksum is taken of nothing -/

namespace Sys2Proof.Machine

/-- A computation that ends with a value or raises a failure, but never with a model fault (R47, R133). -/
def NeverFaults {α : Type} (x : Except Stop α) : Prop := ∀ e, x ≠ .error (.fault e)

theorem neverFaults_ok {α : Type} (a : α) : NeverFaults (.ok a : Except Stop α) := fun _ h => nomatch h

theorem neverFaults_raise {α : Type} (f : Failure) : NeverFaults (.error (.raise f) : Except Stop α) :=
  fun _ h => nomatch h

/-- What a computation that never faults stops with is no fault as the end of another one either. -/
theorem NeverFaults.of_eq_error {α β : Type} {x : Except Stop α} {stop : Stop} (hx : NeverFaults x)
    (h : x = .error stop) : NeverFaults (.error stop : Except Stop β) := by
  intro e he
  cases he
  exact hx e h

/-- A sequence of computations never faults if its parts do not, the second on the values the first can give. -/
theorem NeverFaults.bind {α β : Type} {x : Except Stop α} {f : α → Except Stop β} (hx : NeverFaults x)
    (hf : ∀ a, x = .ok a → NeverFaults (f a)) : NeverFaults (x >>= f) := by
  cases x with
  | error stop => exact hx.of_eq_error rfl
  | ok a => exact hf a rfl

/-- An operation whose computation never faults ends with a delivered response. -/
theorem NeverFaults.conclude_ne_fault {x : Except Stop Response} (hx : NeverFaults x) (s : State) (e : Fault) :
    conclude s x ≠ .fault e := by
  match x with
  | .ok _ => exact fun h => nomatch h
  | .error (.raise _) => exact fun h => nomatch h
  | .error (.fault e') => exact (hx e' rfl).elim

/-- The bytes of a read of at least one byte have a checksum (R133). -/
theorem neverFaults_csumOf {r : Request} {a n : Nat} {p : List Byte} (hp : memRead r a n = .ok p) (hn : 1 ≤ n) :
    NeverFaults (csumOf p) := by
  have hne : p ≠ [] := List.ne_nil_of_length_pos ((memRead_eq_ok hp).2 ▸ hn)
  rw [csumOf_ok hne]
  exact neverFaults_ok _

theorem NeverFaults.verifyChecksum {k : Except Stop Response} (hk : NeverFaults k) (acc c : Byte) :
    NeverFaults (verifyChecksum acc c k) := by
  rw [verifyChecksum_eq]
  split
  · exact hk
  · exact neverFaults_raise _

section
variable {r : Request} (hr : RequestOk r)
include hr

/-! #### Reads of `IN` -/

/-- Every index below `IN_LEN` of a well-formed request holds a byte (R40, R47). -/
theorem RequestOk.neverFaults_inByte {a : Nat} (h : a < r.inLen) : NeverFaults (inByte r a) := by
  rw [eq_requestOf hr.filled] at h ⊢
  rw [inByte_requestOf (List.getElem?_eq_getElem h)]
  exact neverFaults_ok _

theorem RequestOk.neverFaults_memRead {a n : Nat} (h : a + n ≤ r.inLen) : NeverFaults (memRead r a n) := by
  rw [eq_requestOf hr.filled] at h ⊢
  rw [memRead_requestOf h]
  exact neverFaults_ok _

/-! #### ENC and CSUM -/

theorem RequestOk.neverFaults_encodeRequest : NeverFaults (encodeRequest r) := by
  unfold encodeRequest
  split
  · exact neverFaults_raise _
  rename_i hmin
  split
  · exact neverFaults_raise _
  refine (hr.neverFaults_memRead (by omega)).bind fun p hp => ?_
  exact (neverFaults_csumOf hp (not_lt.1 hmin)).bind fun c _ => neverFaults_ok _

theorem RequestOk.neverFaults_checksumRequest : NeverFaults (checksumRequest r) := by
  unfold checksumRequest
  split
  · exact neverFaults_raise _
  rename_i hne
  refine (hr.neverFaults_memRead (by omega)).bind fun bs hbs => ?_
  exact (neverFaults_csumOf hbs (Nat.one_le_iff_ne_zero.2 hne)).bind fun c _ => neverFaults_ok _

/-! #### SCAN and its pattern moves -/

/-- The header search reads up to the last byte of `IN` and no further (R102, D8). -/
theorem RequestOk.neverFaults_findHeader (fuel pos : Nat) (hf : pos + fuel < r.inLen ∨ fuel = 0) :
    NeverFaults (findHeader r fuel pos) := by
  induction fuel generalizing pos with
  | zero => exact neverFaults_raise _
  | succ fuel ih =>
    refine (hr.neverFaults_inByte (by omega)).bind fun b0 _ => ?_
    refine (hr.neverFaults_inByte (by omega)).bind fun b1 _ => ?_
    split
    · exact neverFaults_ok _
    · exact ih (pos + 1) (by omega)

/-- The test for three bytes after the header covers every byte of the length field and the marker (R103). -/
theorem RequestOk.neverFaults_frameLength (h : Nat) : NeverFaults (frameLength r h) := by
  unfold frameLength
  split
  · exact neverFaults_raise _
  refine (hr.neverFaults_inByte (by omega)).bind fun b2 _ => ?_
  split
  · exact neverFaults_raise _
  refine (hr.neverFaults_inByte (by omega)).bind fun b3 _ => ?_
  dsimp only
  split
  · exact neverFaults_raise _
  refine (hr.neverFaults_inByte (by omega)).bind fun b4 _ => ?_
  split
  · exact neverFaults_raise _
  · exact neverFaults_ok _

/-- The bounds test covers every payload byte (R108). -/
theorem RequestOk.neverFaults_takePayload (h n : Nat) : NeverFaults (takePayload r h n) := by
  unfold takePayload
  split
  · exact neverFaults_raise _
  · exact hr.neverFaults_memRead (by omega)

/-- The bounds test a taken frame has passed covers the checksum byte and the footer too (R108). -/
theorem RequestOk.neverFaults_scanEnd {h n : Nat} {p : List Byte} (hf : FrameTaken r h n p) :
    NeverFaults (scanEnd r h n p) := by
  have hfit := hf.fits
  refine (neverFaults_csumOf hf.read hf.one_le).bind fun acc _ => ?_
  refine (hr.neverFaults_inByte (by omega)).bind fun c _ => ?_
  refine ((hr.neverFaults_inByte (by omega)).bind fun f _ => ?_).verifyChecksum acc c
  split
  · exact neverFaults_raise _
  · exact neverFaults_ok _

theorem RequestOk.neverFaults_scanAt (h : Nat) : NeverFaults (scanAt r h) := by
  refine (hr.neverFaults_frameLength h).bind fun n hn => ?_
  refine (hr.neverFaults_takePayload h n).bind fun p hp => ?_
  obtain ⟨h1, hmax⟩ := frameLength_eq_ok hn
  obtain ⟨hfit, hread⟩ := takePayload_eq_ok hp
  exact hr.neverFaults_scanEnd ⟨h1, hmax, hfit, hread⟩

theorem RequestOk.neverFaults_scanFrom (pos : Nat) : NeverFaults (scanFrom r pos) :=
  (hr.neverFaults_findHeader _ pos (by omega)).bind fun h _ => hr.neverFaults_scanAt h

theorem RequestOk.neverFaults_scanRequest : NeverFaults (scanRequest r) := by
  unfold scanRequest
  split
  · exact neverFaults_raise _
  split
  · exact neverFaults_raise _
  · exact hr.neverFaults_scanFrom r.offset

/-- What is left of a SCAN reads within `IN` when the working values belong to the request. -/
theorem RequestOk.neverFaults_scanRest {w : Work} (hw : WorkOk r w) : NeverFaults (scanRest r w) := by
  unfold scanRest
  split
  · exact hr.neverFaults_scanEnd hw.frameTaken
  · exact hr.neverFaults_scanFrom _
  · exact hr.neverFaults_scanRequest

/-- `FRAME.PREFIX` takes the checksum after the zero test and the bounds test (R106, R108). -/
theorem RequestOk.neverFaults_prefixEffect (h n : Nat) : NeverFaults (prefixEffect r h n) := by
  unfold prefixEffect
  split
  · exact neverFaults_raise _
  rename_i hn
  refine (hr.neverFaults_takePayload h n).bind fun p hp => ?_
  obtain ⟨-, hread⟩ := takePayload_eq_ok hp
  exact (neverFaults_csumOf hread (Nat.one_le_iff_ne_zero.2 hn)).bind fun acc _ => neverFaults_ok _

/-! #### Instructions -/

/-- No instruction faults on a well-formed request with working values that belong to it. -/
theorem RequestOk.exec_ne_fault {s : State} (hreq : s.requests = [r]) (hw : WorkOk r s.work) (i : Instr) (e : Fault) :
    exec i s ≠ .fault e := by
  cases i with
  | enc =>
    rw [exec_enc_eq hreq]
    exact hr.neverFaults_encodeRequest.conclude_ne_fault s e
  | scan =>
    rw [exec_scan_eq hreq]
    exact (hr.neverFaults_scanRest hw).conclude_ne_fault s e
  | csum =>
    rw [exec_csum_eq hreq]
    exact hr.neverFaults_checksumRequest.conclude_ne_fault s e
  | framePrefix n =>
    rw [exec, execFramePrefix, onRequest_single hreq]
    dsimp only
    split
    · exact fun h => nomatch h
    · rename_i stop hstop
      exact ((hr.neverFaults_prefixEffect _ n).of_eq_error hstop).conclude_ne_fault s e
  | frameSuffix c =>
    rw [exec, execFrameSuffix, onRequest_single hreq]
    split
    · exact ((neverFaults_ok _).verifyChecksum _ c).conclude_ne_fault s e
    · exact fun h => nomatch h

end

/-- A step that faults is the fetched instruction's fault on the one pending request. -/
theorem step_fault {s : State} {e : Fault} (h : step s = .fault e) :
    ∃ r i, s.requests = [r] ∧ fetch r s.work = .ok i ∧ exec i s = .fault e := by
  unfold step at h
  split at h
  · cases h
  split at h
  · cases h
  · rename_i r hreq
    split at h
    · exact ⟨r, _, hreq, ‹_›, h⟩
    · cases h
  · cases h

/-- Settles O57: only an instruction on the one pending request could fault, and the invariant makes that request and
its working values well-formed. -/
theorem noStepFaults : Obligations.NoStepFaults := by
  intro s e hs h
  obtain ⟨r, i, hreq, -, hexec⟩ := step_fault h
  have hr : RequestOk r := hs.requests r (by simp [hreq])
  exact hr.exec_ne_fault hreq (hs.work r hreq) i e hexec

end Sys2Proof.Machine

/-! ### Encodings: what the wire patterns decode to, and what the step runs -/

namespace Sys2Proof

/-- The decoder on five wire bytes: the pattern of `FRAME.PREFIX` or nothing (R62, R66). -/
theorem decode_five_bytes (b0 b1 b2 b3 b4 : Byte) :
    decode (.frame [b0, b1, b2, b3, b4]) =
      if b0 = 0xA5 ∧ b1 = 0x5A ∧ b2 &&& 0x80 ≠ 0 ∧ b4 = 0xA0 then
        .ok (.framePrefix (b2.toNat % 128 * 256 + b3.toNat))
      else .error .notPrefix := by
  simp only [decode, decodePrefix, prefixMatch_iff, prefixLength_eq]

/-- The decoder on two wire bytes: the pattern of `FRAME.SUFFIX` or nothing (R64). -/
theorem decode_two_bytes (b0 b1 : Byte) :
    decode (.frame [b0, b1]) = if b1 = 0x04 then .ok (.frameSuffix b0) else .error .notSuffix := by
  simp only [decode, decodeSuffix, suffixMatch_iff, suffixChecksum_eq]

/-- Five wire bytes that decode are the `FRAME.PREFIX` of the length they carry (R62, R66). -/
theorem eq_framePrefix_of_decode {bytes : List Byte} {i : Instr} (hlen : bytes.length = 5)
    (h : decode (.frame bytes) = .ok i) :
    ∃ b2 b3 : Byte, bytes = [0xA5, 0x5A, b2, b3, 0xA0] ∧ b2 &&& 0x80 ≠ 0 ∧
      i = .framePrefix (b2.toNat % 128 * 256 + b3.toNat) := by
  match bytes, hlen with
  | [b0, b1, b2, b3, b4], _ =>
    rw [decode_five_bytes] at h
    split at h
    · rename_i hpat
      obtain ⟨rfl, rfl, hflag, rfl⟩ := hpat
      exact ⟨b2, b3, rfl, hflag, (Except.ok.inj h).symm⟩
    · cases h

/-- Two wire bytes that decode are the `FRAME.SUFFIX` of the checksum they carry (R64). -/
theorem eq_frameSuffix_of_decode {bytes : List Byte} {i : Instr} (hlen : bytes.length = 2)
    (h : decode (.frame bytes) = .ok i) : ∃ c : Byte, bytes = [c, 0x04] ∧ i = .frameSuffix c := by
  match bytes, hlen with
  | [b0, b1], _ =>
    rw [decode_two_bytes] at h
    split at h
    · rename_i hfooter
      exact ⟨b0, by rw [hfooter], (Except.ok.inj h).symm⟩
    · cases h

/-- A table word that decodes is a code that does. -/
theorem decode_of_decodeTableWord {nbits w : Nat} {i : Instr} (h : decodeTableWord nbits w = some i) :
    decode (tableCode nbits w) = .ok i := by
  unfold decodeTableWord at h
  split at h
  · rename_i hdec
    rwa [Option.some.inj h] at hdec
  · cases h

end Sys2Proof

namespace Sys2Proof.Machine

/-! #### What the step runs -/

/-- A pending request that selects nothing is refused for the reason `fetch` gives. -/
theorem step_fetch_error {s : State} {r : Request} {e : Refusal} (hr : s.resetIn = false) (hreq : s.requests = [r])
    (hf : fetch r s.work = .error e) : step s = .refused e := by
  simp [step, hr, hreq, hf]

/-- A SCAN runs the pattern at its cursor, or itself (R75, R79). -/
theorem fetch_scan {r : Request} (hop : r.op = 0b10) (w : Work) :
    fetch r w = .ok ((patternAtCursor r w).getD .scan) := by
  have hdec : decode (.op r.op) = .ok .scan := by rw [hop]; rfl
  rw [fetch, hdec]

/-- The pattern found is what the bytes read at the cursor decode to. -/
theorem patternAtCursor_of_decode {r : Request} {w : Work} {pos : Nat} {bytes : List Byte} {i : Instr}
    (hpos : w.pos = some pos) (hread : memRead r pos (patternLength w) = .ok bytes)
    (hdec : decode (.frame bytes) = .ok i) : patternAtCursor r w = some i := by
  simp only [patternAtCursor, hpos, hread, hdec]

/-- No pattern is found where no bytes read at the cursor decode. -/
theorem patternAtCursor_eq_none {r : Request} {w : Work} {pos : Nat} (hpos : w.pos = some pos)
    (hno : ∀ bytes i, memRead r pos (patternLength w) = .ok bytes → decode (.frame bytes) ≠ .ok i) :
    patternAtCursor r w = none := by
  rw [Option.eq_none_iff_forall_ne_some]
  intro i hi
  obtain ⟨pos', bytes, hpos', hread, hdec⟩ := patternAtCursor_eq_some hi
  obtain rfl : pos = pos' := Option.some.inj (hpos.symm.trans hpos')
  exact hno bytes i hread hdec

/-- Settles O7: `fetch` looks for a pattern at the cursor, and selects SCAN where it finds none. -/
theorem stepRunsPatternAtCursor : Obligations.StepRunsPatternAtCursor := by
  intro s r pos hreset hreq hop hpos
  constructor
  · intro bytes i hread hdec
    refine step_fetched hreset hreq ?_
    rw [fetch_scan hop, patternAtCursor_of_decode hpos hread hdec, Option.getD_some]
  · intro hno
    refine step_fetched hreset hreq ?_
    rw [fetch_scan hop, patternAtCursor_eq_none hpos hno, Option.getD_none]

/-- Settles O9: `OP = 00` decodes to nothing, whatever the cursor. -/
theorem reservedOpRefused : Obligations.ReservedOpRefused := by
  intro s r hreset hreq hop
  have hdec : decode (.op r.op) = .error .reservedOp := by rw [hop]; rfl
  exact step_fetch_error hreset hreq (by rw [fetch, hdec])

/-! #### The patterns, exactly -/

/-- Settles O4, by the mask and match of `FRAME.PREFIX`. -/
theorem prefixPatternExact : Obligations.PrefixPatternExact := by
  intro b0 b1 b2 b3 b4 n
  rw [decode_five_bytes]
  constructor
  · intro h
    split at h
    · rename_i hpat
      obtain ⟨h0, h1, hflag, h4⟩ := hpat
      cases h
      exact ⟨h0, h1, hflag, rfl, h4⟩
    · cases h
  · rintro ⟨h0, h1, hflag, rfl, h4⟩
    rw [if_pos ⟨h0, h1, hflag, h4⟩]

/-- Settles O5, by the mask and match of `FRAME.SUFFIX`. -/
theorem suffixPatternExact : Obligations.SuffixPatternExact := by
  intro b0 b1 c
  rw [decode_two_bytes]
  constructor
  · intro h
    split at h
    · cases h
      exact ⟨‹_›, rfl⟩
    · cases h
  · rintro ⟨rfl, rfl⟩
    rfl

/-- Settles O1: the codes by evaluation, the frame bytes as instances of the exact patterns. -/
theorem specCodesDecode : Obligations.SpecCodesDecode := by
  refine ⟨rfl, rfl, rfl, rfl, ?_, ?_, ?_⟩
  · exact (prefixPatternExact _ _ _ _ _ 4).2 (by decide)
  · exact (prefixPatternExact _ _ _ _ _ 32767).2 (by decide)
  · exact (suffixPatternExact _ _ _).2 ⟨rfl, rfl⟩

/-! #### Placed codes -/

/-- Bytes that stand in `IN` from `a` on are read as they stand. -/
theorem inBytes_of_stored {r : Request} {bytes : List Byte} {a : Nat} (hlen : a + bytes.length ≤ r.inLen)
    (h : ∀ i, i < bytes.length → r.input.read (a + i) = bytes[i]?) : inBytes r a bytes.length = .ok bytes := by
  induction bytes generalizing a with
  | nil => rfl
  | cons b bytes ih =>
    rw [List.length_cons] at hlen
    have hb : inByte r a = .ok b := inByte_ok (by omega) (h 0 (Nat.zero_lt_succ _))
    have hbs : inBytes r (a + 1) bytes.length = .ok bytes := by
      refine ih (by omega) fun i hi => ?_
      rw [Nat.add_assoc, Nat.add_comm 1 i]
      exact h (i + 1) (Nat.succ_lt_succ hi)
    rw [List.length_cons, inBytes, hb, hbs]
    rfl

/-- A placed pattern is read back where it was placed, whatever `IN` held. -/
theorem memRead_withPattern (r : Request) (pos : Nat) (bytes : List Byte) :
    memRead (withPattern r pos bytes) pos bytes.length = .ok bytes := by
  have hlen : pos + bytes.length ≤ (withPattern r pos bytes).inLen := le_max_right _ _
  rw [memRead, if_pos hlen]
  refine inBytes_of_stored hlen fun i hi => ?_
  rw [withPattern, read_memWrite, if_pos (by omega), Nat.add_sub_cancel_left]

/-- A taken payload has a cursor behind it. -/
theorem Work.pos_of_takenPayload {w : Work} (h : w.takenPayload = true) : ∃ pos, w.pos = some pos := by
  unfold Work.takenPayload at h
  split at h
  · exact ⟨_, rfl⟩
  · cases h

/-- A pattern that stands at the cursor of the one pending SCAN is what the step runs. -/
theorem step_pattern {s : State} {r : Request} {pos : Nat} {bytes : List Byte} {i : Instr} (hreset : s.resetIn = false)
    (hreq : s.requests = [r]) (hop : r.op = 0b10) (hpos : s.work.pos = some pos)
    (hlen : bytes.length = if s.work.takenPayload then 2 else 5) (hread : memRead r pos bytes.length = .ok bytes)
    (hdec : decode (.frame bytes) = .ok i) : step s = exec i s :=
  (stepRunsPatternAtCursor s r pos hreset hreq hop hpos).1 bytes i (hlen ▸ hread) hdec

/-- Two bytes are placed behind the payload a SCAN has taken (assumption 11). -/
theorem placeCode_suffix_taken {s : State} {bytes : List Byte} {pos : Nat} (hlen : bytes.length = 2)
    (ht : s.work.takenPayload = true) (hpos : s.work.pos = some pos) :
    placeCode s (.frame bytes) =
      { s with resetIn := false, requests := [withPattern (requestForCode s) pos bytes] } := by
  simp only [placeCode, hlen, ht, hpos, if_true]

/-- Where no payload has been taken, two bytes are placed behind the one-byte payload `00` (assumption 11). -/
theorem placeCode_suffix_untaken {s : State} {bytes : List Byte} (hlen : bytes.length = 2)
    (ht : s.work.takenPayload = false) :
    placeCode s (.frame bytes) =
      { s with
        resetIn := false
        requests := [requestOf 0b10 (prefixBytes 1 ++ [0x00] ++ bytes) 0]
        work := Work.atSuffix 0 1 [0x00] 0x00 } := by
  simp [placeCode, hlen, ht, requestOf, prefixBytes, opScan]

/-- Five bytes are placed at the cursor (assumption 11). -/
theorem placeCode_prefix {s : State} {bytes : List Byte} (hlen : bytes.length = 5) :
    placeCode s (.frame bytes) =
      { s with
        resetIn := false
        requests := [withPattern (requestForCode s) (s.work.pos.getD (requestForCode s).offset) bytes]
        work := ⟨some (s.work.pos.getD (requestForCode s).offset), none, none, none, none⟩ } := by
  simp [placeCode, hlen]

/-- A code that decodes is run by the step of the state it is placed in: an `OP` with no operation in progress, a
`FRAME.PREFIX` at the cursor, a `FRAME.SUFFIX` behind a taken payload (assumption 11). -/
theorem step_placeCode (s : State) {c : Code} {i : Instr} (h : decode c = .ok i) :
    step (placeCode s c) = exec i (placeCode s c) := by
  cases c with
  | op v => exact stepRunsSelectedOperation _ _ i rfl rfl rfl h
  | frame bytes =>
    rcases decode_frame_length h with hlen | hlen
    · rw [placeCode_prefix hlen]
      exact step_pattern rfl rfl rfl rfl hlen (memRead_withPattern _ _ _) h
    · cases ht : s.work.takenPayload with
      | true =>
        obtain ⟨pos, hpos⟩ := Work.pos_of_takenPayload ht
        rw [placeCode_suffix_taken hlen ht hpos]
        exact step_pattern rfl rfl rfl hpos (by simp [hlen, ht]) (memRead_withPattern _ _ _) h
      | false =>
        rw [placeCode_suffix_untaken hlen ht]
        have hread : memRead (requestOf 0b10 (prefixBytes 1 ++ [0x00] ++ bytes) 0) 6 bytes.length = .ok bytes := by
          rw [memRead_requestOf (by simp [prefixBytes]; omega)]
          simp [prefixBytes]
        exact step_pattern rfl rfl rfl rfl hlen hread h

/-- Settles O8: a table word stands for a code, and every code that decodes runs where it is placed. -/
theorem placedWordRunsNext : Obligations.PlacedWordRunsNext := fun s _ _ _ h =>
  step_placeCode s (decode_of_decodeTableWord h)

/-! #### The checksum of a sequence with its own checksum -/

/-- CSUM on the bytes of a list: their exclusive-or, or `EmptyInput` where there are none (R130, R131). -/
theorem checksumRequest_requestOf (op : BitVec 2) (bs : List Byte) (off : Nat) :
    checksumRequest (requestOf op bs off) =
      if bs = [] then .error (.raise (.csum .emptyInput)) else .ok (Response.csumOk (xorSum bs)) := by
  by_cases hbs : bs = []
  · subst hbs
    rfl
  · rw [if_neg hbs, checksumRequest, if_neg (by simpa using hbs), memRead_requestOf (by simp), requestOf_inLen,
      List.drop_zero, List.take_length]
    simp only [bind, Except.bind]
    rw [csumOf_ok hbs]

/-- CSUM answers a byte exactly for the sequences that have one, and it is their exclusive-or (R130, R131). -/
theorem csumGives_byte_iff {bs : List Byte} {c : Byte} :
    CsumGives bs ⟨.ok, none, none, none, none, some c⟩ ↔ bs ≠ [] ∧ c = xorSum bs := by
  constructor
  · intro h
    have hexec := h ⟨false, [requestOf 0b11 bs 0], none, Work.idle⟩ 0b11 0 rfl
    rw [exec_csum_eq rfl, checksumRequest_requestOf] at hexec
    split at hexec
    · cases hexec
    · cases hexec
      exact ⟨‹_›, rfl⟩
  · rintro ⟨hbs, rfl⟩ s op off hreq
    rw [exec_csum_eq hreq, checksumRequest_requestOf, if_neg hbs, conclude_ok, Response.csumOk]

/-- Settles O43: the exclusive-or of a byte with itself is zero. -/
theorem csumWithOwnChecksumIsZero : Obligations.CsumWithOwnChecksumIsZero := by
  intro bs c h
  obtain ⟨-, rfl⟩ := csumGives_byte_iff.1 h
  have hzero : 0x00 = xorSum (bs ++ [xorSum bs]) := by simp
  exact csumGives_byte_iff.2 ⟨by simp, hzero⟩

/-! #### The two pattern moves -/

section
variable {s : State} {r : Request} (hreq : s.requests = [r])
include hreq

/-- `FRAME.PREFIX` that takes its payload goes on at the suffix (R79, assumption 7). -/
theorem exec_framePrefix_ok {n : Nat} {p : List Byte} {acc : Byte}
    (h : prefixEffect r (s.work.pos.getD r.offset) n = .ok (p, acc)) :
    exec (.framePrefix n) s =
      .next ⟨s.resetIn, s.requests, none, Work.atSuffix (s.work.pos.getD r.offset) n p acc⟩ := by
  rw [exec, execFramePrefix, onRequest_single hreq]
  simp only [h]

/-- `FRAME.PREFIX` that takes no payload ends the operation (R79, assumption 7). -/
theorem exec_framePrefix_error {n : Nat} {e : Stop} (h : prefixEffect r (s.work.pos.getD r.offset) n = .error e) :
    exec (.framePrefix n) s = conclude s (.error e) := by
  rw [exec, execFramePrefix, onRequest_single hreq]
  simp only [h]

/-- `FRAME.SUFFIX` behind a taken payload is the checksum test before SCAN's success (R79, assumption 7). -/
theorem exec_frameSuffix_eq {pos h n : Nat} {p : List Byte} {acc : Byte} (c : Byte)
    (hw : s.work = ⟨some pos, some h, some n, some p, some acc⟩) :
    exec (.frameSuffix c) s = conclude s (verifyChecksum acc c (.ok (scanSuccess h n p))) := by
  rw [exec, execFrameSuffix, onRequest_single hreq]
  simp only [hw]

end

/-- The success of SCAN with its payload as a byte sequence (R112). -/
theorem scanSuccess_eq (h n : Nat) (p : List Byte) :
    scanSuccess h n p = ⟨.ok, some (Memory.ofBytes p), some n, some h, some (h + 6 + n), none⟩ := by
  rw [scanSuccess, memWrite_nil, Response.scanOk]

/-- A `FRAME.PREFIX` whose non-empty frame fits leads to the payload and its exclusive-or (R106, R108, R109). -/
theorem prefixEffect_fits {op : BitVec 2} {bs : List Byte} {off h n : Nat} (hn : 1 ≤ n)
    (hfit : h + 7 + n ≤ bs.length) :
    prefixEffect (requestOf op bs off) h n = .ok ((bs.drop (h + 5)).take n, xorSum ((bs.drop (h + 5)).take n)) := by
  have hne : (bs.drop (h + 5)).take n ≠ [] := by
    refine List.ne_nil_of_length_pos ?_
    simp only [List.length_take, List.length_drop]
    omega
  rw [prefixEffect, if_neg (by omega), takePayload_fits hfit]
  simp only [bind, Except.bind]
  rw [csumOf_ok hne]

/-- Settles O49: what the move leads to when the frame fits is what it leaves in the working values. -/
theorem framePrefixTakesPayload : Obligations.FramePrefixTakesPayload := by
  rintro s op bs off h n hreq rfl hn hfit
  exact exec_framePrefix_ok hreq (prefixEffect_fits hn hfit)

/-- Settles O51, by the two outcomes of the checksum test. -/
theorem frameSuffixEndsOperation : Obligations.FrameSuffixEndsOperation := by
  intro s r pos h n p acc c hreq hw
  rw [exec_frameSuffix_eq hreq c hw, verifyChecksum_eq]
  constructor
  · intro hacc
    rw [if_pos hacc, conclude_ok, scanSuccess_eq]
  · intro hacc
    rw [if_neg hacc, scanRaise, conclude_raise]

/-! #### The recogniser and the atomic SCAN -/

/-- SCAN's closing steps begin with the payload's checksum, so taking it before them changes nothing (R110). -/
theorem csumOf_bind_scanEnd (r : Request) (h n : Nat) (p : List Byte) :
    (csumOf p >>= fun _ => scanEnd r h n p) = scanEnd r h n p := by
  unfold scanEnd
  cases csumOf p <;> rfl

section
variable {op : BitVec 2} {bs : List Byte} {off : Nat}

/-- Bytes read from `a` on are the buffer's bytes at their indices (R9, R12). -/
theorem getElem?_of_memRead {a n i : Nat} {bytes : List Byte} {b : Byte}
    (hread : memRead (requestOf op bs off) a n = .ok bytes) (hb : bytes[i]? = some b) : bs[a + i]? = some b := by
  rw [memRead_requestOf (memRead_eq_ok hread).1] at hread
  obtain rfl := Except.ok.inj hread
  rw [List.getElem?_take] at hb
  split at hb
  · rwa [List.getElem?_drop] at hb
  · cases hb

/-- Where `FRAME.PREFIX` matches, SCAN's steps behind the header are its move and then the closing steps (R104 to R110):
the flag and marker tests pass, and the zero test is the move's own. -/
theorem scanAt_of_prefix {h : Nat} {b2 b3 : Byte}
    (hread : memRead (requestOf op bs off) h 5 = .ok [0xA5, 0x5A, b2, b3, 0xA0]) (hflag : b2 &&& 0x80 ≠ 0) :
    scanAt (requestOf op bs off) h =
      (prefixEffect (requestOf op bs off) h (b2.toNat % 128 * 256 + b3.toNat) >>= fun x =>
        scanEnd (requestOf op bs off) h (b2.toNat % 128 * 256 + b3.toNat) x.1) := by
  rw [scanAt, frameLength_bytes (getElem?_of_memRead (i := 2) hread rfl) (getElem?_of_memRead (i := 3) hread rfl)
    (getElem?_of_memRead (i := 4) hread rfl), if_neg hflag, prefixEffect]
  generalize b2.toNat % 128 * 256 + b3.toNat = n
  by_cases hn : n = 0
  · simp only [if_pos hn]
    rfl
  · rw [if_neg hn, if_neg hn, if_neg (by simp), bind_assoc]
    change (takePayload _ h n >>= _) = _
    refine bind_congr fun p => ?_
    rw [bind_assoc]
    exact (csumOf_bind_scanEnd _ h n p).symm

/-- Where `FRAME.SUFFIX` matches, SCAN's closing steps are the checksum test, the footer test passing (R110, R111). -/
theorem scanEnd_of_suffix {h n : Nat} {p : List Byte} {acc c : Byte} (hacc : csumOf p = .ok acc)
    (hread : memRead (requestOf op bs off) (h + 5 + n) 2 = .ok [c, 0x04]) :
    scanEnd (requestOf op bs off) h n p = verifyChecksum acc c (.ok (scanSuccess h n p)) := by
  have hc : bs[h + 5 + n]? = some c := getElem?_of_memRead (i := 0) hread rfl
  have hf : bs[h + 6 + n]? = some 0x04 := by
    have := getElem?_of_memRead (i := 1) hread rfl
    rwa [show h + 5 + n + 1 = h + 6 + n by omega] at this
  obtain ⟨hp, rfl⟩ := csumOf_eq_ok hacc
  rw [scanEnd_bytes hp hc hf, verifyChecksum_eq, scanSuccess_eq]
  simp

/-- With its first header from the cursor on at `h`, what is left of SCAN is its steps behind that header (R102). -/
theorem scanFrom_found {pos h : Nat} (hh : FirstHeader bs pos h) :
    scanFrom (requestOf op bs off) pos = scanAt (requestOf op bs off) h := by
  rw [scanFrom, requestOf_inLen, findHeader_found hh]
  rfl

/-- SCAN with eight bytes left is its steps behind the first header (R101, R102). -/
theorem scanRequest_found {h : Nat} (hlen : off + 8 ≤ bs.length) (hh : FirstHeader bs off h) :
    scanRequest (requestOf op bs off) = scanAt (requestOf op bs off) h := by
  rw [scanRequest, requestOf_inLen, requestOf_offset, if_neg (by omega),
    if_neg (by simp only [precheckLimit]; omega), scanFrom_found hh]

end

theorem FirstHeader.of_le {bs : List Byte} {off pos h : Nat} (hh : FirstHeader bs off h) (hoff : off ≤ pos)
    (hpos : pos ≤ h) : FirstHeader bs pos h := by
  obtain ⟨-, hpair, hmin⟩ := hh
  exact ⟨hpos, hpair, fun i hi => hmin i (hoff.trans hi)⟩

section
variable {s : State} {bs : List Byte} {off : Nat} (hreset : s.resetIn = false)
  (hreq : s.requests = [requestOf 0b10 bs off])
include hreset hreq

/-- Once the payload is taken, the step ends as SCAN's closing steps do, whether a suffix stands at the cursor or
not. -/
theorem step_atSuffix {h n : Nat} {p : List Byte} {acc : Byte} (hw : s.work = Work.atSuffix h n p acc)
    (hacc : csumOf p = .ok acc) : step s = conclude s (scanEnd (requestOf 0b10 bs off) h n p) := by
  have hpos : s.work.pos = some (h + 5 + n) := by rw [hw, Work.atSuffix_pos]
  obtain ⟨hpattern, hrest⟩ := stepRunsPatternAtCursor s _ _ hreset hreq rfl hpos
  simp only [hw, Work.atSuffix_takenPayload, if_true] at hpattern hrest
  by_cases hdec : ∃ bytes i,
      memRead (requestOf 0b10 bs off) (h + 5 + n) 2 = .ok bytes ∧ decode (.frame bytes) = .ok i
  · obtain ⟨bytes, i, hread, hdec⟩ := hdec
    obtain ⟨c, rfl, rfl⟩ := eq_frameSuffix_of_decode (memRead_eq_ok hread).2 hdec
    rw [hpattern _ _ hread hdec, exec_frameSuffix_eq hreq c hw, scanEnd_of_suffix hacc hread]
  · rw [hrest fun bytes i hread h => hdec ⟨bytes, i, hread, h⟩, exec_scan_eq hreq, hw]
    rfl

/-- With the cursor at or before the first header, the step either ends as SCAN's steps behind that header do, or takes
the payload there, and SCAN's closing steps are left. -/
theorem step_atCursor {pos h : Nat} (hw : s.work = ⟨some pos, none, none, none, none⟩) (hh : FirstHeader bs pos h) :
    step s = conclude s (scanAt (requestOf 0b10 bs off) h) ∨
    ∃ n p acc, step s = .next ⟨s.resetIn, s.requests, none, Work.atSuffix h n p acc⟩ ∧ csumOf p = .ok acc ∧
      scanAt (requestOf 0b10 bs off) h = scanEnd (requestOf 0b10 bs off) h n p := by
  have hpos : s.work.pos = some pos := by rw [hw]
  have ht : s.work.takenPayload = false := by rw [hw]; rfl
  obtain ⟨hpattern, hrest⟩ := stepRunsPatternAtCursor s _ _ hreset hreq rfl hpos
  simp only [ht, Bool.false_eq_true, if_false] at hpattern hrest
  by_cases hdec : ∃ bytes i, memRead (requestOf 0b10 bs off) pos 5 = .ok bytes ∧ decode (.frame bytes) = .ok i
  · obtain ⟨bytes, i, hread, hdec⟩ := hdec
    obtain ⟨b2, b3, rfl, hflag, rfl⟩ := eq_framePrefix_of_decode (memRead_eq_ok hread).2 hdec
    have hpair : HeaderPair bs pos :=
      ⟨getElem?_of_memRead (i := 0) hread rfl, getElem?_of_memRead (i := 1) hread rfl⟩
    obtain rfl : h = pos := firstHeader_unique hh ⟨le_rfl, hpair, fun i hle hlt => absurd hle (not_le.2 hlt)⟩
    have hn : b2.toNat % 128 * 256 + b3.toNat ≤ 32767 := (decode_frame_prefix hdec).2
    rw [hpattern _ _ hread hdec, scanAt_of_prefix hread hflag]
    have hcursor : s.work.pos.getD (requestOf 0b10 bs off).offset = h := by rw [hpos, Option.getD_some]
    cases hp : prefixEffect (requestOf 0b10 bs off) h (b2.toNat % 128 * 256 + b3.toNat) with
    | error e => exact .inl (exec_framePrefix_error hreq (hcursor.symm ▸ hp))
    | ok x =>
      obtain ⟨p, acc⟩ := x
      have hexec := exec_framePrefix_ok hreq (hcursor.symm ▸ hp)
      rw [hcursor] at hexec
      exact .inr ⟨_, p, acc, hexec, (prefixEffect_eq_ok hn hp).2, rfl⟩
  · left
    rw [hrest fun bytes i hread h => hdec ⟨bytes, i, hread, h⟩, exec_scan_eq hreq, hw]
    exact congrArg _ (scanFrom_found hh)

end

/-- Settles O53: the atomic SCAN ends as its steps behind the header do, and so do the moves from any cursor up to that
header. -/
theorem patternMovesAgreeWithScan : Obligations.PatternMovesAgreeWithScan := by
  intro s t bs off pos h hreset hreq hw hlen hh hoff hpos hstep
  have hatomic : conclude s (scanAt (requestOf 0b10 bs off) h) = .next t := by
    have hexec : step s = exec .scan s :=
      stepRunsSelectedOperation s _ .scan hreset hreq (by rw [hw, Work.idle_pos]) rfl
    rw [← hstep, hexec, exec_scan_eq hreq, hw, ← scanRequest_found hlen hh]
    rfl
  intro m
  have hend : ∀ u : State, u.resetIn = false → conclude u (scanAt (requestOf 0b10 bs off) h) = .next t :=
    fun u hu => (conclude_congr (hu.trans hreset.symm) _).trans hatomic
  rcases step_atCursor (s := m) rfl hreq rfl (hh.of_le hoff hpos) with hm | ⟨n, p, acc, hm, hacc, hscan⟩
  · exact .inl (hm.trans (hend m rfl))
  · have hu := step_atSuffix (s := ⟨false, s.requests, none, Work.atSuffix h n p acc⟩) rfl hreq rfl hacc
    rw [← hscan] at hu
    exact .inr ⟨_, hm, rfl, rfl, hu.trans (hend _ rfl)⟩

end Sys2Proof.Machine

/-! ### The encoder: the frame ENC writes, and SCAN of it -/

namespace Sys2Proof.Machine

/-! #### The bytes of a frame -/

@[simp] theorem length_wireFrame (p : List Byte) : (wireFrame p).length = p.length + 7 := by
  simp [wireFrame]

/-- The payload stands from index 5 on (R49). -/
theorem getElem?_wireFrame_payload {p : List Byte} {i : Nat} (hi : i < p.length) :
    (wireFrame p)[5 + i]? = p[i]? := by
  rw [wireFrame, List.append_assoc, List.getElem?_append_right (by simp),
    List.getElem?_append_left (by simpa using hi)]
  simp

/-- The checksum byte stands behind the payload (R49). -/
theorem getElem?_wireFrame_checksum (p : List Byte) : (wireFrame p)[5 + p.length]? = some (xorSum p) := by
  rw [wireFrame, List.getElem?_append_right (by simp; omega)]
  simp [show 5 + p.length - (p.length + 5) = 0 by omega]

/-- The footer is the last byte (R49). -/
theorem getElem?_wireFrame_footer (p : List Byte) : (wireFrame p)[6 + p.length]? = some 0x04 := by
  rw [wireFrame, List.getElem?_append_right (by simp; omega)]
  simp [show 6 + p.length - (p.length + 5) = 1 by omega]

/-- The payload is a slice of its frame (R94). -/
theorem slice_wireFrame (p : List Byte) : ((wireFrame p).drop 5).take p.length = p := by
  simp [wireFrame]

/-- Different payloads have different frames: the length of the frame gives that of the payload, and the payload is a
slice (R94). -/
theorem wireFrame_injective : Function.Injective wireFrame := by
  intro p q h
  have hlen : p.length = q.length := by simpa using congrArg List.length h
  rw [← slice_wireFrame p, ← slice_wireFrame q, h, hlen]

/-! #### ENC -/

/-- ENC's fields are those of the frame of R60 when its checksum is the payload's (R90). -/
theorem encFrame_eq_wireFrame (p : List Byte) : encFrame p.length p (xorSum p) = Memory.ofBytes (wireFrame p) := by
  rw [encFrame_eq_ofBytes rfl, lenHi_eq, lenLo_eq, hdr0_eq, hdr1_eq, marker_eq, footer_eq, wireFrame]

/-- What ENC answers to the bytes of a list: one of its two failures, or the frame (R90). -/
theorem encodeRequest_requestOf (op : BitVec 2) (p : List Byte) (off : Nat) :
    encodeRequest (requestOf op p off) =
      if p = [] then .error (.raise (.encode .emptyPayload))
      else if 127 < p.length then .error (.raise (.encode .payloadTooLarge))
      else .ok (Response.encOk (Memory.ofBytes (wireFrame p)) (p.length + 7)) := by
  by_cases hp : p = []
  · subst hp
    rfl
  · have hmin : 0 < p.length := List.length_pos_iff.2 hp
    have hread : memRead (requestOf op p off) 0 p.length = .ok p := by
      rw [memRead_requestOf (by omega), List.drop_zero, List.take_length]
    rw [encodeRequest, requestOf_inLen, encMinPayload, encMaxPayload, frameOverhead, if_neg (by omega), if_neg hp,
      hread, ← encFrame_eq_wireFrame]
    simp only [bind, Except.bind]
    rw [csumOf_ok hp]

/-- ENC of 1 to 127 bytes completes with their frame, whatever else the request and the state hold (R90). -/
theorem exec_enc_frame {s : State} {op : BitVec 2} {p : List Byte} {off : Nat}
    (hreq : s.requests = [requestOf op p off]) (hmin : 1 ≤ p.length) (hmax : p.length ≤ 127) :
    exec .enc s = .next (answered s (Response.encOk (Memory.ofBytes (wireFrame p)) (p.length + 7))) := by
  rw [exec_enc_eq hreq, encodeRequest_requestOf, if_neg (List.ne_nil_of_length_pos hmin), if_neg (by omega),
    conclude_ok]

/-- ENC succeeds with the frame and with nothing else (R90, R94). -/
theorem EncGives.eq_encOk {p : List Byte} {x : Response} (h : EncGives p x) (hok : x.status = .ok) :
    x = Response.encOk (Memory.ofBytes (wireFrame p)) (p.length + 7) := by
  have hexec := h ⟨false, [requestOf 0b01 p 0], none, Work.idle⟩ 0b01 0 rfl
  rw [exec_enc_eq rfl, encodeRequest_requestOf] at hexec
  rcases conclude_next hexec with ⟨y, hy, hxy⟩ | ⟨f, -, hf⟩
  · obtain rfl : x = y := Option.some.inj (congrArg State.response hxy)
    split at hy
    · cases hy
    split at hy
    · cases hy
    exact (Except.ok.inj hy).symm
  · cases hf
    cases hok

/-- Settles O16, by the two length tests of ENC. -/
theorem encProducesFrame : Obligations.EncProducesFrame := by
  refine ⟨fun s op off hreq => ?_, fun p hp s op off hreq => ?_, fun p hmin hmax s op off hreq => ?_⟩
  · rw [exec_enc_eq hreq, encodeRequest_requestOf, if_pos rfl, conclude_raise]
  · have hne : p ≠ [] := List.ne_nil_of_length_pos (by omega)
    rw [exec_enc_eq hreq, encodeRequest_requestOf, if_neg hne, if_pos hp, conclude_raise]
  · exact exec_enc_frame hreq hmin hmax

/-- Settles O17: the byte space of the frame reads at each index as the frame's byte list does. -/
theorem encFrameLayout : Obligations.EncFrameLayout := by
  intro s op off p hreq hmin hmax
  have hhi : (0x80 : Byte) ||| BitVec.ofNat 8 (p.length / 256) = 0x80 := by
    rw [Nat.div_eq_of_lt (by omega)]
    rfl
  have hlo : p.length % 256 = p.length := Nat.mod_eq_of_lt (by omega)
  refine ⟨Memory.ofBytes (wireFrame p), exec_enc_frame hreq hmin hmax, Memory.ofBytes_wf _, ?_⟩
  simp only [Memory.read_ofBytes]
  refine ⟨rfl, rfl, congrArg some hhi, ?_, rfl, fun i hi => getElem?_wireFrame_payload hi,
    ⟨xorSum p, getElem?_wireFrame_checksum p, BitVec.xor_self⟩, getElem?_wireFrame_footer p, fun a ha => ?_⟩
  · exact congrArg (fun n => some (BitVec.ofNat 8 n)) hlo
  · exact List.getElem?_eq_none (by simpa using ha)

/-- Settles O18: a success carries the frame, and the frame determines the payload. -/
theorem encIsInjective : Obligations.EncIsInjective := by
  intro p q x hp hq hok
  have hx := (hp.eq_encOk hok).symm.trans (hq.eq_encOk hok)
  have hout : Memory.ofBytes (wireFrame p) = Memory.ofBytes (wireFrame q) :=
    Option.some.inj (congrArg Response.out hx)
  exact wireFrame_injective (Memory.ofBytes_injective hout)

/-! #### SCAN of a frame -/

/-- A byte of a frame that stands in a buffer. -/
theorem getElem?_framed {p : List Byte} {i : Nat} {b : Byte} (front back : List Byte)
    (hb : (wireFrame p)[i]? = some b) :
    (front ++ wireFrame p ++ back)[front.length + i]? = some b := by
  have hi : i < (wireFrame p).length := (List.getElem?_eq_some_iff.1 hb).1
  rw [List.append_assoc, List.getElem?_append_right (by omega), Nat.add_sub_cancel_left,
    List.getElem?_append_left hi, hb]

/-- A frame begins with a header pair (R60, R70). -/
theorem headerPair_framed (front p back : List Byte) : HeaderPair (front ++ wireFrame p ++ back) front.length :=
  ⟨getElem?_framed (i := 0) front back rfl, getElem?_framed (i := 1) front back rfl⟩

/-- The payload of a frame that stands in a buffer is the slice five bytes behind its header (R94, R109). -/
theorem slice_framed (front p back : List Byte) :
    ((front ++ wireFrame p ++ back).drop (front.length + 5)).take p.length = p := by
  rw [List.append_assoc, ← List.drop_drop, List.drop_left, List.drop_append_of_le_length (by simp),
    List.take_append_of_le_length (by simp), slice_wireFrame]

/-- The length bytes of a frame as the number they stand for (R66, R67). -/
theorem length_bytes_toNat {n : Nat} (h : n ≤ 32767) :
    (0x80 ||| BitVec.ofNat 8 (n / 256) : Byte).toNat % 128 * 256 + (BitVec.ofNat 8 (n % 256) : Byte).toNat = n := by
  rw [← lenHi_eq, ← lenLo_eq, ← decodeLength_eq, decodeLength_encoded h]

section
variable {op : BitVec 2} {p : List Byte} {off : Nat} (front back : List Byte) (hmin : 1 ≤ p.length)
include hmin

/-- SCAN's tests of the length and the marker pass at a frame and give its payload's length (R103 to R107). -/
theorem frameLength_framed (hmax : p.length ≤ 32767) :
    frameLength (requestOf op (front ++ wireFrame p ++ back) off) front.length = .ok p.length := by
  have hflag : (0x80 ||| BitVec.ofNat 8 (p.length / 256) : Byte) &&& 0x80 ≠ 0 := lenHi_eq p.length ▸ lenHi_flag _
  rw [frameLength_bytes (getElem?_framed (i := 2) front back rfl) (getElem?_framed (i := 3) front back rfl)
    (getElem?_framed (i := 4) front back rfl), if_neg hflag, length_bytes_toNat hmax, if_neg (by omega),
    if_neg (by simp)]

/-- SCAN's closing tests pass at a frame (R110 to R112). -/
theorem scanEnd_framed :
    scanEnd (requestOf op (front ++ wireFrame p ++ back) off) front.length p.length p =
      .ok (scanSuccess front.length p.length p) := by
  have hc := getElem?_framed front back (getElem?_wireFrame_checksum p)
  have hf := getElem?_framed front back (getElem?_wireFrame_footer p)
  rw [← Nat.add_assoc] at hc hf
  rw [scanEnd_bytes (List.ne_nil_of_length_pos hmin) hc hf, scanSuccess_eq]
  simp

/-- SCAN's steps behind a header at which a frame stands give its payload back (R103 to R112). -/
theorem scanAt_framed (hmax : p.length ≤ 32767) :
    scanAt (requestOf op (front ++ wireFrame p ++ back) off) front.length =
      .ok (scanSuccess front.length p.length p) := by
  rw [scanAt, frameLength_framed front back hmin hmax]
  simp only [bind, Except.bind]
  rw [takePayload_fits (by simp; omega), slice_framed]
  exact scanEnd_framed front back hmin

end

/-- SCAN of a frame alone in the buffer, from offset 0 (R95). -/
theorem scanRequest_wireFrame {op : BitVec 2} {p : List Byte} (hmin : 1 ≤ p.length) (hmax : p.length ≤ 32767) :
    scanRequest (requestOf op (wireFrame p) 0) = .ok (scanSuccess 0 p.length p) := by
  have hpair := headerPair_framed [] p []
  have hscan := scanAt_framed (op := op) (off := 0) [] [] hmin hmax
  simp only [List.nil_append, List.append_nil, List.length_nil] at hpair hscan
  rw [scanRequest_found (by simp; omega) ⟨le_rfl, hpair, fun i _ hi => absurd hi (Nat.not_lt_zero i)⟩, hscan]

/-- With no operation in progress, what is left of SCAN is all of it (R32). -/
theorem scanRest_idle (r : Request) : scanRest r Work.idle = scanRequest r := rfl

/-- The answer to a request holds nothing of it but the response (R20). -/
theorem answered_issue (s : State) (r : Request) (x : Response) : answered (issue s r) x = answered s x := rfl

/-- A request issued to the idle block is the one pending (R174). -/
theorem issue_idle_requests {s : State} (hidle : s.requests = []) (r : Request) : (issue s r).requests = [r] := by
  rw [issue_requests, hidle, List.nil_append]

/-- The step serving a request issued to the idle block is the operation `OP` selects (R23, R75). -/
theorem step_issue {s : State} {r : Request} {i : Instr} (hreset : s.resetIn = false) (hidle : s.requests = [])
    (hw : s.work = Work.idle) (hi : decode (.op r.op) = .ok i) : step (issue s r) = exec i (issue s r) :=
  stepRunsSelectedOperation _ r i hreset (issue_idle_requests hidle r) (by rw [issue_work, hw, Work.idle_pos]) hi

/-- The step serving ENC of 1 to 127 bytes answers their frame and leaves the block idle (R23, R90). -/
theorem step_issue_enc {s : State} {p : List Byte} (hreset : s.resetIn = false) (hidle : s.requests = [])
    (hw : s.work = Work.idle) (off : Nat) (hmin : 1 ≤ p.length) (hmax : p.length ≤ 127) :
    step (issue s (requestOf 0b01 p off)) =
      .next (answered s (Response.encOk (Memory.ofBytes (wireFrame p)) (p.length + 7))) := by
  rw [step_issue (i := .enc) hreset hidle hw rfl, exec_enc_frame (issue_idle_requests hidle _) hmin hmax,
    answered_issue]

/-- The step serving SCAN of a frame alone in the buffer answers its payload (R23, R95). -/
theorem step_issue_scan_wireFrame {s : State} {p : List Byte} (hreset : s.resetIn = false) (hidle : s.requests = [])
    (hw : s.work = Work.idle) (hmin : 1 ≤ p.length) (hmax : p.length ≤ 32767) :
    step (issue s (requestOf 0b10 (wireFrame p) 0)) = .next (answered s (scanSuccess 0 p.length p)) := by
  rw [step_issue (i := .scan) hreset hidle hw rfl, exec_scan_eq (issue_idle_requests hidle _), issue_work, hw,
    scanRest_idle, scanRequest_wireFrame hmin hmax, conclude_ok, answered_issue]

/-- Settles O19: ENC's step answers the frame and leaves the block idle, so SCAN's step finds the frame at offset 0. -/
theorem encodeThenScanGivesPayload : Obligations.EncodeThenScanGivesPayload := by
  intro s p off hreset hidle hw hmin hmax
  have henc := step_issue_enc hreset hidle hw off hmin hmax
  have hscan := step_issue_scan_wireFrame
    (s := answered s (Response.encOk (Memory.ofBytes (wireFrame p)) (p.length + 7))) hreset rfl rfl hmin (by omega)
  rw [requestOf, length_wireFrame, scanSuccess_eq, Nat.zero_add, Nat.add_comm 6] at hscan
  exact ⟨_, _, _, _, henc, rfl, hscan, rfl⟩

end Sys2Proof.Machine

/-! ### SCAN: its tests in order, and what it finds as a whole -/

namespace Sys2Proof.Machine

/-! #### SCAN's answer is that of its ten steps -/

/-- An operation ends with a response exactly when its computation gives it, or raises the failure it carries. -/
theorem conclude_eq_answered_iff {s : State} {e : Except Stop Response} {x : Response} :
    conclude s e = .next (answered s x) ↔ e = .ok x ∨ ∃ f, e = .error (.raise f) ∧ x = failedWith f := by
  constructor
  · intro h
    rcases conclude_next h with ⟨y, hy, hxy⟩ | ⟨f, hf, hxf⟩
    · obtain rfl : x = y := Option.some.inj (congrArg State.response hxy)
      exact .inl hy
    · exact .inr ⟨f, hf, Option.some.inj (congrArg State.response hxf)⟩
  · rintro (rfl | ⟨f, rfl, rfl⟩)
    · exact conclude_ok s x
    · exact conclude_raise s f

/-! SCAN reads neither `OP` nor, behind the header search's first index, `OFFSET`: of the request only `IN` (R24). -/

section
variable (op op' : BitVec 2) (bs : List Byte) (off off' : Nat)

theorem inBytes_reads_input (a n : Nat) :
    inBytes (requestOf op bs off) a n = inBytes (requestOf op' bs off') a n := by
  induction n generalizing a with
  | zero => rfl
  | succ n ih =>
    rw [inBytes, inBytes, ih]
    rfl

theorem findHeader_reads_input (fuel pos : Nat) :
    findHeader (requestOf op bs off) fuel pos = findHeader (requestOf op' bs off') fuel pos := by
  induction fuel generalizing pos with
  | zero => rfl
  | succ fuel ih =>
    simp only [findHeader, ih]
    rfl

theorem scanAt_reads_input (h : Nat) : scanAt (requestOf op bs off) h = scanAt (requestOf op' bs off') h := by
  simp only [scanAt, takePayload, memRead, inBytes_reads_input op op' bs off off']
  rfl

theorem scanRequest_reads_input : scanRequest (requestOf op bs off) = scanRequest (requestOf op' bs off) := by
  simp only [scanRequest, scanFrom, findHeader_reads_input op op' bs off off, scanAt_reads_input op op' bs off off]
  rfl

end

/-- SCAN answers what its ten steps end with: a success, or the failure raised (R23, R100). -/
theorem scanGives_iff (op : BitVec 2) {bs : List Byte} {off : Nat} {x : Response} :
    ScanGives bs off x ↔
      scanRequest (requestOf op bs off) = .ok x ∨
      ∃ f, scanRequest (requestOf op bs off) = .error (.raise f) ∧ x = failedWith f := by
  constructor
  · intro h
    have hexec := h ⟨false, [requestOf op bs off], none, Work.idle⟩ op rfl rfl
    rw [exec_scan_eq rfl, scanRest_idle] at hexec
    exact conclude_eq_answered_iff.1 hexec
  · intro h s op' hreq hw
    rw [exec_scan_eq hreq, hw, scanRest_idle, scanRequest_reads_input op' op]
    exact conclude_eq_answered_iff.2 h

theorem scanFails_iff (op : BitVec 2) {bs : List Byte} {off : Nat} {e : DecodeError} :
    ScanFails bs off e ↔ scanRequest (requestOf op bs off) = scanRaise e := by
  rw [ScanFails, scanGives_iff op]
  constructor
  · rintro (h | ⟨f, h, hf⟩)
    · obtain ⟨_, _, _, -, hx⟩ := scanRequest_eq_ok h
      cases hx
    · cases hf
      exact h
  · exact fun h => .inr ⟨_, h, rfl⟩

theorem scanFinds_iff (op : BitVec 2) {bs : List Byte} {off : Nat} {p : List Byte} {h : Nat} :
    ScanFinds bs off p h ↔ scanRequest (requestOf op bs off) = .ok (scanSuccess h p.length p) := by
  rw [ScanFinds, ← scanSuccess_eq, scanGives_iff op]
  constructor
  · rintro (h | ⟨f, -, hf⟩)
    · exact h
    · cases hf
  · exact .inl

/-! #### The order of the tests -/

/-- The place of a failure in the order in which SCAN tests for them (R145). -/
def DecodeError.rank : DecodeError → Nat
  | .offsetOutOfRange => 0
  | .bufferTooShort => 1
  | .headerNotFound => 2
  | .truncatedLengthOrMarker => 3
  | .missingLengthFlag => 4
  | .emptyPayload => 5
  | .missingMarker => 6
  | .truncatedPayload => 7
  | .checksumMismatch => 8
  | .missingFooter => 9

/-- A part of SCAN that stands behind the test for `d`: it raises only failures that are tested later (R145). -/
def RaisesAfter {α : Type} (d : DecodeError) (x : Except Stop α) : Prop := ∀ e, x = scanRaise e → d.rank < e.rank

theorem scanRaise_injective {α : Type} {d e : DecodeError} (h : (scanRaise d : Except Stop α) = scanRaise e) :
    d = e := by
  cases h
  rfl

theorem RaisesAfter.ne_scanRaise {α : Type} {d : DecodeError} {x : Except Stop α} (hx : RaisesAfter d x) :
    x ≠ scanRaise d := fun h => lt_irrefl _ (hx d h)

theorem raisesAfter_ok {α : Type} (d : DecodeError) (a : α) : RaisesAfter d (.ok a : Except Stop α) :=
  fun _ h => nomatch h

theorem raisesAfter_fault {α : Type} (d : DecodeError) (f : Fault) :
    RaisesAfter d (.error (.fault f) : Except Stop α) := fun _ h => nomatch h

theorem RaisesAfter.mono {α : Type} {d e : DecodeError} {x : Except Stop α} (hx : RaisesAfter e x)
    (hle : d.rank ≤ e.rank) : RaisesAfter d x := fun e' h => hle.trans_lt (hx e' h)

/-- A test for `e`, with only later tests behind it, stands behind the test for any earlier failure. -/
theorem RaisesAfter.ite {α : Type} {d e : DecodeError} {x : Except Stop α} (hx : RaisesAfter e x)
    (hlt : d.rank < e.rank) (c : Prop) [Decidable c] : RaisesAfter d (if c then scanRaise e else x) := by
  split
  · intro e' h
    exact scanRaise_injective h ▸ hlt
  · exact hx.mono hlt.le

theorem RaisesAfter.bind {α β : Type} {d : DecodeError} {x : Except Stop α} {f : α → Except Stop β}
    (hx : RaisesAfter d x) (hf : ∀ a, RaisesAfter d (f a)) : RaisesAfter d (x >>= f) := by
  cases x with
  | error stop =>
    intro e h
    cases h
    exact hx e rfl
  | ok a => exact hf a

/-- The test for `e`, with only later tests behind it, is what decides whether `e` is raised. -/
theorem RaisesAfter.ite_eq_scanRaise_iff {α : Type} {e : DecodeError} {x : Except Stop α} (hx : RaisesAfter e x)
    (c : Prop) [Decidable c] : (if c then scanRaise e else x) = scanRaise e ↔ c := by
  refine ⟨fun h => by_contra fun hc => ?_, fun hc => if_pos hc⟩
  rw [if_neg hc] at h
  exact hx.ne_scanRaise h

section
variable (d : DecodeError) (r : Request)

theorem raisesAfter_inByte (a : Nat) : RaisesAfter d (inByte r a) := by
  unfold inByte
  split
  · split
    · exact raisesAfter_ok d _
    · exact raisesAfter_fault d _
  · exact raisesAfter_fault d _

theorem raisesAfter_memRead (a n : Nat) : RaisesAfter d (memRead r a n) := by
  have hbytes : RaisesAfter d (inBytes r a n) := by
    induction n generalizing a with
    | zero => exact raisesAfter_ok d _
    | succ n ih => exact (raisesAfter_inByte d r a).bind fun b => (ih (a + 1)).bind fun bs => raisesAfter_ok d _
  unfold memRead
  split
  · exact hbytes
  · exact raisesAfter_fault d _

theorem raisesAfter_csumOf (bs : List Byte) : RaisesAfter d (csumOf bs) := by
  unfold csumOf
  split
  · exact raisesAfter_ok d _
  · exact raisesAfter_fault d _

end

/-- Steps 6 to 10 (R108 to R112): what is left of SCAN behind the marker. -/
def scanPayload (r : Request) (h n : Nat) : Except Stop Response := takePayload r h n >>= scanEnd r h n

section
variable (r : Request)

theorem raisesAfter_scanEnd (h n : Nat) (p : List Byte) : RaisesAfter .truncatedPayload (scanEnd r h n p) := by
  refine (raisesAfter_csumOf _ p).bind fun acc => (raisesAfter_inByte _ r _).bind fun c => ?_
  refine RaisesAfter.ite ?_ (by decide) _
  exact (raisesAfter_inByte _ r _).bind fun f => (raisesAfter_ok .missingFooter _).ite (by decide) _

theorem raisesAfter_scanPayload (h n : Nat) : RaisesAfter .missingMarker (scanPayload r h n) := by
  refine RaisesAfter.bind ?_ fun p => (raisesAfter_scanEnd r h n p).mono (by decide)
  exact (raisesAfter_memRead .truncatedPayload r _ n).ite (by decide) _

theorem raisesAfter_frameLength (h : Nat) : RaisesAfter .headerNotFound (frameLength r h) := by
  refine RaisesAfter.ite ?_ (by decide) _
  refine (raisesAfter_inByte _ r _).bind fun b2 => RaisesAfter.ite ?_ (by decide) _
  refine (raisesAfter_inByte _ r _).bind fun b3 => RaisesAfter.ite ?_ (by decide) _
  exact (raisesAfter_inByte _ r _).bind fun b4 => (raisesAfter_ok .missingMarker _).ite (by decide) _

theorem scanAt_eq_bind (h : Nat) : scanAt r h = frameLength r h >>= scanPayload r h := rfl

theorem raisesAfter_scanAt (h : Nat) : RaisesAfter .headerNotFound (scanAt r h) :=
  (raisesAfter_frameLength r h).bind fun n => (raisesAfter_scanPayload r h n).mono (by decide)

theorem raisesAfter_findHeader (fuel pos : Nat) : RaisesAfter .bufferTooShort (findHeader r fuel pos) := by
  induction fuel generalizing pos with
  | zero =>
    intro e he
    obtain rfl := scanRaise_injective he
    decide
  | succ fuel ih =>
    refine (raisesAfter_inByte _ r _).bind fun b0 => (raisesAfter_inByte _ r _).bind fun b1 => ?_
    split
    · exact raisesAfter_ok _ _
    · exact ih (pos + 1)

theorem raisesAfter_scanFrom (pos : Nat) : RaisesAfter .bufferTooShort (scanFrom r pos) :=
  (raisesAfter_findHeader r _ pos).bind fun h => (raisesAfter_scanAt r h).mono (by decide)

end

/-! #### SCAN test by test -/

section
variable {op : BitVec 2} {bs : List Byte} {off h n : Nat}

theorem scanRequest_requestOf :
    scanRequest (requestOf op bs off) =
      if bs.length ≤ off then scanRaise .offsetOutOfRange
      else if bs.length - off ≤ 7 then scanRaise .bufferTooShort
      else scanFrom (requestOf op bs off) off := rfl

/-- Steps 3 to 5 on three bytes that exist, before the rest of SCAN (R104 to R107). -/
theorem scanAt_bytes {b2 b3 b4 : Byte} (e2 : bs[h + 2]? = some b2) (e3 : bs[h + 3]? = some b3)
    (e4 : bs[h + 4]? = some b4) :
    scanAt (requestOf op bs off) h =
      if b2 &&& 0x80 = 0 then scanRaise .missingLengthFlag
      else if b2.toNat % 128 * 256 + b3.toNat = 0 then scanRaise .emptyPayload
      else if b4 ≠ 0xA0 then scanRaise .missingMarker
      else scanPayload (requestOf op bs off) h (b2.toNat % 128 * 256 + b3.toNat) := by
  rw [scanAt_eq_bind, frameLength_bytes e2 e3 e4]
  split_ifs <;> rfl

/-- The bytes of the length field and of the marker stand in a buffer with three bytes behind the header. -/
theorem exists_prefix_bytes (hl : h + 5 ≤ bs.length) :
    ∃ b2 b3 b4 : Byte, bs[h + 2]? = some b2 ∧ bs[h + 3]? = some b3 ∧ bs[h + 4]? = some b4 :=
  ⟨_, _, _, List.getElem?_eq_getElem (by omega), List.getElem?_eq_getElem (by omega),
    List.getElem?_eq_getElem (by omega)⟩

/-- SCAN that has passed steps 1 to 3 is its steps behind the header (R101 to R103). -/
theorem HeaderPassed.scanRequest_eq (hh : HeaderPassed bs off h) :
    scanRequest (requestOf op bs off) = scanAt (requestOf op bs off) h := by
  obtain ⟨hlen, hfirst, -⟩ := hh
  exact scanRequest_found hlen hfirst

/-- SCAN that has passed steps 1 to 5 is its steps behind the marker (R101 to R107). -/
theorem PrefixPassed.scanRequest_eq (hp : PrefixPassed bs off h n) :
    scanRequest (requestOf op bs off) = scanPayload (requestOf op bs off) h n := by
  obtain ⟨hh, b2, b3, e2, e3, hflag, rfl, hne, e4⟩ := hp
  rw [hh.scanRequest_eq, scanAt_bytes e2 e3 e4, if_neg hflag, if_neg hne, if_neg (by simp)]

theorem PrefixPassed.one_le (hp : PrefixPassed bs off h n) : 1 ≤ n := by
  obtain ⟨-, b2, b3, -, -, -, -, hne, -⟩ := hp
  exact Nat.one_le_iff_ne_zero.2 hne

theorem length_slice (hfit : h + 7 + n ≤ bs.length) : ((bs.drop (h + 5)).take n).length = n := by
  rw [List.length_take, List.length_drop]
  omega

/-- Steps 6 to 10 on a frame that fits: the checksum test, the footer test, success (R108 to R112). -/
theorem scanPayload_bytes {c f : Byte} (hn : 1 ≤ n) (hfit : h + 7 + n ≤ bs.length) (ec : bs[h + 5 + n]? = some c)
    (ef : bs[h + 6 + n]? = some f) :
    scanPayload (requestOf op bs off) h n =
      if xorSum ((bs.drop (h + 5)).take n) ^^^ c ≠ 0 then scanRaise .checksumMismatch
      else if f ≠ 0x04 then scanRaise .missingFooter
      else .ok ⟨.ok, some (Memory.ofBytes ((bs.drop (h + 5)).take n)), some n, some h, some (h + 6 + n), none⟩ := by
  have hne : (bs.drop (h + 5)).take n ≠ [] := List.ne_nil_of_length_pos (by rwa [length_slice hfit])
  rw [← scanEnd_bytes hne ec ef, scanPayload, takePayload_fits hfit]
  rfl

end

/-- Settles O20: both tests stand before all others. -/
theorem scanBoundsPrecheck : Obligations.ScanBoundsPrecheck := by
  intro bs off
  have hrest := raisesAfter_scanFrom (requestOf 0b10 bs off) off
  rw [scanFails_iff 0b10, scanFails_iff 0b10, scanRequest_requestOf]
  refine ⟨(hrest.ite (by decide) _).ite_eq_scanRaise_iff _, fun hoff => ?_⟩
  rw [if_neg (not_le.2 hoff)]
  exact hrest.ite_eq_scanRaise_iff _

/-- Settles O21: the search finds the first header pair, behind which no step raises `HeaderNotFound`, or there is
none. -/
theorem scanSearchesFirstHeader : Obligations.ScanSearchesFirstHeader := by
  intro bs off hlen
  rw [scanFails_iff 0b10]
  rcases firstHeader_or_none (bs := bs) off with ⟨h, hh⟩ | hnone
  · constructor
    · rw [scanRequest_found hlen hh]
      exact iff_of_false (raisesAfter_scanAt _ h).ne_scanRaise fun hn => hn h hh.1 hh.2.1
    · intro op h'
      rw [findHeader_found hh]
      constructor
      · rintro ⟨⟩
        exact hh
      · exact fun hh' => congrArg _ (firstHeader_unique hh hh')
  · constructor
    · refine iff_of_true ?_ hnone
      rw [scanRequest_requestOf, if_neg (by omega), if_neg (by omega), scanFrom, requestOf_inLen, findHeader_none hnone]
      rfl
    · intro op h'
      rw [findHeader_none hnone]
      exact iff_of_false (fun h => nomatch h) fun hh' => hnone h' hh'.1 hh'.2.1

/-- Settles O22: with three bytes behind the header only the later tests are left. -/
theorem scanTruncatedLengthOrMarker : Obligations.ScanTruncatedLengthOrMarker := by
  intro bs off h hlen hh
  rw [scanFails_iff 0b10, scanRequest_found hlen hh]
  by_cases hl : bs.length - (h + 2) < 3
  · refine iff_of_true ?_ hl
    rw [scanAt_eq_bind, frameLength_truncated hl]
    rfl
  · obtain ⟨b2, b3, b4, e2, e3, e4⟩ := exists_prefix_bytes (h := h) (bs := bs) (by omega)
    refine iff_of_false ?_ hl
    rw [scanAt_bytes e2 e3 e4]
    exact ((((raisesAfter_scanPayload _ _ _).ite (by decide) _).ite (by decide) _).ite (by decide) _).ne_scanRaise

/-- Settles O23: the flag's test stands before those of the zero length, the marker and the payload. -/
theorem scanMissingLengthFlag : Obligations.ScanMissingLengthFlag := by
  intro bs off h b2 hh e2
  obtain ⟨_, b3, b4, -, e3, e4⟩ := exists_prefix_bytes hh.2.2
  rw [scanFails_iff 0b10, hh.scanRequest_eq, scanAt_bytes e2 e3 e4]
  exact (((raisesAfter_scanPayload _ _ _).ite (by decide) _).ite (by decide) _).ite_eq_scanRaise_iff _

/-- The length field stands for zero, with the flag set, exactly in `80 00` (R106). -/
theorem length_eq_zero_iff {b2 b3 : Byte} (hflag : b2 &&& 0x80 ≠ 0) :
    b2.toNat % 128 * 256 + b3.toNat = 0 ↔ b2 = 0x80 ∧ b3 = 0x00 := by
  have h2 : b2.toNat % 128 = 0 ↔ b2 = 0x80 := by
    revert b2
    decide
  have h3 : b3.toNat = 0 ↔ b3 = 0x00 := by
    revert b3
    decide
  rw [← h2, ← h3]
  omega

/-- Settles O24: the zero length is `80 00`, and its test stands before those of the marker and the payload. -/
theorem scanZeroLength : Obligations.ScanZeroLength := by
  intro bs off h b2 b3 hh e2 e3 hflag
  obtain ⟨_, _, b4, -, -, e4⟩ := exists_prefix_bytes hh.2.2
  rw [scanFails_iff 0b10, hh.scanRequest_eq, scanAt_bytes e2 e3 e4, if_neg hflag, ← length_eq_zero_iff hflag]
  exact ((raisesAfter_scanPayload _ _ _).ite (by decide) _).ite_eq_scanRaise_iff _

/-- Settles O25: the marker's test stands before that of the payload's bounds. -/
theorem scanMissingMarker : Obligations.ScanMissingMarker := by
  intro bs off h b2 b3 b4 hh e2 e3 e4 hflag hne
  rw [scanFails_iff 0b10, hh.scanRequest_eq, scanAt_bytes e2 e3 e4, if_neg hflag, if_neg hne]
  exact (raisesAfter_scanPayload _ _ _).ite_eq_scanRaise_iff _

/-- Settles O26: behind the bounds test only the checksum and the footer are tested. -/
theorem scanTruncatedPayload : Obligations.ScanTruncatedPayload := by
  intro bs off h n hp
  rw [scanFails_iff 0b10, hp.scanRequest_eq, scanPayload]
  by_cases hl : bs.length - (h + 4) < n + 3
  · refine iff_of_true ?_ hl
    rw [takePayload_truncated hl]
    rfl
  · refine iff_of_false ?_ hl
    rw [takePayload_fits (by omega)]
    exact (raisesAfter_scanEnd _ h n _).ne_scanRaise

/-- Settles O27: the checksum's test stands before the footer's. -/
theorem scanChecksumMismatch : Obligations.ScanChecksumMismatch := by
  intro bs off h n c hp hfit ec
  have ef := List.getElem?_eq_getElem (l := bs) (i := h + 6 + n) (by omega)
  rw [scanFails_iff 0b10, hp.scanRequest_eq, scanPayload_bytes hp.one_le (by omega) ec ef]
  exact ((raisesAfter_ok .missingFooter _).ite (by decide) _).ite_eq_scanRaise_iff _

/-- Settles O28: the footer's test is the last. -/
theorem scanMissingFooter : Obligations.ScanMissingFooter := by
  intro bs off h n c f hp hfit ec hxor ef
  rw [scanFails_iff 0b10, hp.scanRequest_eq, scanPayload_bytes hp.one_le (by omega) ec ef, if_neg (not_not.2 hxor)]
  exact (raisesAfter_ok _ _).ite_eq_scanRaise_iff _

/-- Settles O29: every test passes. -/
theorem scanSucceeds : Obligations.ScanSucceeds := by
  intro s op bs off h n c hreq hw hp hfit ec hxor ef
  rw [exec_scan_eq hreq, hw, scanRest_idle, hp.scanRequest_eq, scanPayload_bytes hp.one_le (by omega) ec ef,
    if_neg (not_not.2 hxor), if_neg (by simp), conclude_ok]

/-- Settles O50: the zero test, and the bounds test of the payload. -/
theorem framePrefixFailures : Obligations.FramePrefixFailures := by
  rintro s op bs off h n hreq rfl
  have hfails : ∀ e, prefixEffect (requestOf op bs off) (s.work.pos.getD off) n = scanRaise e →
      exec (.framePrefix n) s = .next (answered s (failedWith (.decode e))) := fun e he =>
    (exec_framePrefix_error hreq he).trans (conclude_raise s _)
  constructor
  · intro hn
    exact hfails _ (by rw [prefixEffect, if_pos hn])
  · intro hn hl
    refine hfails _ ?_
    rw [prefixEffect, if_neg hn, takePayload_truncated hl]
    rfl

end Sys2Proof.Machine

/-! ### SCAN as a whole: frames, appended bytes, noise, cuts and flipped bits -/

namespace Sys2Proof.Machine

/-! #### Passed tests stay passed when bytes are appended -/

section
variable {bs : List Byte} {off h n i : Nat} (more : List Byte)

theorem getElem?_append_of_some {b : Byte} (hb : bs[i]? = some b) : (bs ++ more)[i]? = some b := by
  rwa [List.getElem?_append_left (List.getElem?_eq_some_iff.1 hb).1]

theorem headerPair_append_iff (hi : i + 1 < bs.length) : HeaderPair (bs ++ more) i ↔ HeaderPair bs i := by
  rw [HeaderPair, HeaderPair, List.getElem?_append_left (by omega), List.getElem?_append_left hi]

theorem FirstHeader.append (hh : FirstHeader bs off h) : FirstHeader (bs ++ more) off h := by
  obtain ⟨hoff, hpair, hmin⟩ := hh
  have hlt := headerPair_lt hpair
  refine ⟨hoff, (headerPair_append_iff more hlt).2 hpair, fun i hi hih hp => hmin i hi hih ?_⟩
  exact (headerPair_append_iff more (by omega)).1 hp

theorem HeaderPassed.append (hh : HeaderPassed bs off h) : HeaderPassed (bs ++ more) off h := by
  obtain ⟨hlen, hfirst, hl⟩ := hh
  have hle : bs.length ≤ (bs ++ more).length := by simp
  exact ⟨hlen.trans hle, hfirst.append more, hl.trans hle⟩

theorem PrefixPassed.append (hp : PrefixPassed bs off h n) : PrefixPassed (bs ++ more) off h n := by
  obtain ⟨hh, b2, b3, e2, e3, hflag, hn, hne, e4⟩ := hp
  exact ⟨hh.append more, b2, b3, getElem?_append_of_some more e2, getElem?_append_of_some more e3, hflag, hn, hne,
    getElem?_append_of_some more e4⟩

theorem slice_append (hfit : h + 7 + n ≤ bs.length) :
    ((bs ++ more).drop (h + 5)).take n = (bs.drop (h + 5)).take n := by
  rw [List.drop_append_of_le_length (by omega), List.take_append_of_le_length (by rw [List.length_drop]; omega)]

end

/-! #### Where SCAN stops -/

section
variable (op : BitVec 2) {bs : List Byte} {off h n : Nat}

/-- Steps 1 to 3 pass, or SCAN raises a failure that more bytes may help (R101 to R103, R144). -/
theorem headerPassed_or_exhausted (bs : List Byte) (off : Nat) :
    (∃ h, HeaderPassed bs off h) ∨
    ∃ e, scanRequest (requestOf op bs off) = scanRaise e ∧ failureClass (.decode e) = some .exhaustion := by
  obtain ⟨hrange, hshort⟩ := scanBoundsPrecheck bs off
  by_cases hoff : bs.length ≤ off
  · exact .inr ⟨_, (scanFails_iff op).1 (hrange.2 hoff), rfl⟩
  by_cases hlen : bs.length - off ≤ 7
  · exact .inr ⟨_, (scanFails_iff op).1 ((hshort (not_le.1 hoff)).2 hlen), rfl⟩
  have hlen' : off + 8 ≤ bs.length := by omega
  rcases firstHeader_or_none (bs := bs) off with ⟨h, hh⟩ | hnone
  · by_cases hl : bs.length - (h + 2) < 3
    · exact .inr ⟨_, (scanFails_iff op).1 ((scanTruncatedLengthOrMarker bs off h hlen' hh).2 hl), rfl⟩
    · exact .inl ⟨h, hlen', hh, by omega⟩
  · exact .inr ⟨_, (scanFails_iff op).1 ((scanSearchesFirstHeader bs off hlen').1.2 hnone), rfl⟩

/-- Behind a header steps 4 and 5 pass, or their bytes decide the failure, whatever bytes are appended (R104 to
R107). -/
theorem HeaderPassed.prefixPassed_or_raises (hh : HeaderPassed bs off h) :
    (∃ n, PrefixPassed bs off h n) ∨ ∃ e, ∀ more, scanRequest (requestOf op (bs ++ more) off) = scanRaise e := by
  obtain ⟨b2, b3, b4, e2, e3, e4⟩ := exists_prefix_bytes hh.2.2
  have hscan : ∀ more, scanRequest (requestOf op (bs ++ more) off) = _ := fun more =>
    (hh.append more).scanRequest_eq.trans (scanAt_bytes (getElem?_append_of_some more e2)
      (getElem?_append_of_some more e3) (getElem?_append_of_some more e4))
  by_cases hflag : b2 &&& 0x80 = 0
  · exact .inr ⟨_, fun more => by rw [hscan, if_pos hflag]⟩
  by_cases hzero : b2.toNat % 128 * 256 + b3.toNat = 0
  · exact .inr ⟨_, fun more => by rw [hscan, if_neg hflag, if_pos hzero]⟩
  by_cases hmarker : b4 = 0xA0
  · exact .inl ⟨_, hh, b2, b3, e2, e3, hflag, rfl, hzero, hmarker ▸ e4⟩
  · exact .inr ⟨_, fun more => by rw [hscan, if_neg hflag, if_neg hzero, if_pos hmarker]⟩

theorem PrefixPassed.scanRequest_truncated (hp : PrefixPassed bs off h n) (hfit : ¬ h + 7 + n ≤ bs.length) :
    scanRequest (requestOf op bs off) = scanRaise .truncatedPayload :=
  (scanFails_iff op).1 ((scanTruncatedPayload bs off h n hp).2 (by omega))

/-- A success of SCAN passed every test (R101 to R112). -/
theorem scanRequest_eq_ok_tests {x : Response} (hx : scanRequest (requestOf op bs off) = .ok x) :
    ∃ h n, PrefixPassed bs off h n ∧ h + 7 + n ≤ bs.length ∧
      bs[h + 5 + n]? = some (xorSum ((bs.drop (h + 5)).take n)) ∧ bs[h + 6 + n]? = some 0x04 ∧
      x = scanSuccess h n ((bs.drop (h + 5)).take n) := by
  rcases headerPassed_or_exhausted op bs off with ⟨h, hh⟩ | ⟨e, he, -⟩
  · rcases hh.prefixPassed_or_raises op with ⟨n, hp⟩ | ⟨e, he⟩
    · by_cases hfit : h + 7 + n ≤ bs.length
      · have ec := List.getElem?_eq_getElem (l := bs) (i := h + 5 + n) (by omega)
        have ef := List.getElem?_eq_getElem (l := bs) (i := h + 6 + n) (by omega)
        rw [hp.scanRequest_eq, scanPayload_bytes hp.one_le hfit ec ef, ← scanSuccess_eq] at hx
        split at hx
        · cases hx
        rename_i hxor
        split at hx
        · cases hx
        rename_i hfooter
        have hc := BitVec.xor_eq_zero_iff.1 (not_not.1 hxor)
        exact ⟨h, n, hp, hfit, hc ▸ ec, not_not.1 hfooter ▸ ef, (Except.ok.inj hx).symm⟩
      · cases (hp.scanRequest_truncated op hfit).symm.trans hx
    · have hraise : scanRequest (requestOf op bs off) = scanRaise e := by simpa using he []
      cases hraise.symm.trans hx
  · cases he.symm.trans hx

/-- Appended bytes change SCAN's answer only where it raised a failure that more bytes may help (R113, R114 b, R144). -/
theorem scanRequest_append (bs more : List Byte) (off : Nat) :
    (∃ e, scanRequest (requestOf op bs off) = scanRaise e ∧ failureClass (.decode e) = some .exhaustion) ∨
    scanRequest (requestOf op (bs ++ more) off) = scanRequest (requestOf op bs off) := by
  rcases headerPassed_or_exhausted op bs off with ⟨h, hh⟩ | hraise
  · rcases hh.prefixPassed_or_raises op with ⟨n, hp⟩ | ⟨e, he⟩
    · by_cases hfit : h + 7 + n ≤ bs.length
      · have ec := List.getElem?_eq_getElem (l := bs) (i := h + 5 + n) (by omega)
        have ef := List.getElem?_eq_getElem (l := bs) (i := h + 6 + n) (by omega)
        refine .inr ?_
        rw [hp.scanRequest_eq, (hp.append more).scanRequest_eq, scanPayload_bytes hp.one_le hfit ec ef,
          scanPayload_bytes hp.one_le (hfit.trans (by simp)) (getElem?_append_of_some more ec)
            (getElem?_append_of_some more ef), slice_append more hfit]
      · exact .inl ⟨_, hp.scanRequest_truncated op hfit, rfl⟩
    · have hraise : scanRequest (requestOf op bs off) = scanRaise e := by simpa using he []
      exact .inr ((he more).trans hraise.symm)
  · exact .inl hraise

end

/-- Settles O31: a success and a failure of class (c) are none of the failures that appended bytes may help. -/
theorem appendedBytesChangeNoFinalAnswer : Obligations.AppendedBytesChangeNoFinalAnswer := by
  intro bs more off x hx hfinal
  rcases scanRequest_append 0b10 bs more off with ⟨e, he, hclass⟩ | happend
  · exfalso
    rw [scanGives_iff 0b10, he] at hx
    obtain hok | ⟨f, hf, rfl⟩ := hx
    · cases hok
    cases hf
    rcases hfinal with hok | ⟨f, hf, hmismatch⟩
    · cases hok
    · cases hf
      cases hclass.symm.trans hmismatch
  · rw [scanGives_iff 0b10] at hx ⊢
    rwa [happend]

/-- Settles O32: from either offset SCAN is its steps behind the one header. -/
theorem offsetBeforeHeaderGivesSameAnswer : Obligations.OffsetBeforeHeaderGivesSameAnswer := by
  intro bs off off' h x hh hle hoff' hlen
  rw [scanGives_iff 0b10, scanGives_iff 0b10, scanRequest_found (by omega) hh,
    scanRequest_found hlen (hh.of_le hle hoff'), scanAt_reads_input 0b10 0b10 bs off off']

/-! #### The frame in the buffer -/

theorem wireFrame_eq (p : List Byte) :
    wireFrame p = prefixBytes p.length ++ (p ++ suffixBytes (xorSum p)) := by
  rw [wireFrame, List.append_assoc, prefixBytes, lenHi_eq, lenLo_eq]
  rfl

theorem flag_or_low_bits {b : Byte} (hflag : b &&& 0x80 ≠ 0) : 0x80 ||| BitVec.ofNat 8 (b.toNat % 128) = b := by
  revert b
  decide

/-- A length field with its flag set is the one that encodes its length (R66, R67). -/
theorem lenHi_lenLo_of_flag {b2 b3 : Byte} (hflag : b2 &&& 0x80 ≠ 0) :
    lenHi (b2.toNat % 128 * 256 + b3.toNat) = b2 ∧ lenLo (b2.toNat % 128 * 256 + b3.toNat) = b3 := by
  have h3 := b3.isLt
  have hhi : (b2.toNat % 128 * 256 + b3.toNat) / 256 = b2.toNat % 128 := by omega
  have hlo : (b2.toNat % 128 * 256 + b3.toNat) % 256 = b3.toNat := by omega
  rw [lenHi_eq, lenLo_eq, hhi, hlo, BitVec.ofNat_toNat, BitVec.setWidth_eq]
  exact ⟨flag_or_low_bits hflag, rfl⟩

theorem PrefixPassed.le_max {bs : List Byte} {off h n : Nat} (hp : PrefixPassed bs off h n) : n ≤ 32767 := by
  obtain ⟨-, b2, b3, -, -, -, rfl, -, -⟩ := hp
  exact decodeLength_eq b2 b3 ▸ decodeLength_le b2 b3

/-- The response of a success determines its frame (R112). -/
theorem scanSuccess_injective {h h' n n' : Nat} {p p' : List Byte} (e : scanSuccess h n p = scanSuccess h' n' p') :
    h = h' ∧ n = n' ∧ p = p' := by
  rw [scanSuccess_eq, scanSuccess_eq] at e
  exact ⟨Option.some.inj (congrArg Response.hdrIdx e), Option.some.inj (congrArg Response.outLen e),
    Memory.ofBytes_injective (Option.some.inj (congrArg Response.out e))⟩

theorem drop_eq_cons {bs : List Byte} {i : Nat} {b : Byte} (hb : bs[i]? = some b) :
    bs.drop i = b :: bs.drop (i + 1) := by
  obtain ⟨hi, rfl⟩ := List.getElem?_eq_some_iff.1 hb
  exact List.drop_eq_getElem_cons hi

/-- Where every test passed, the frame of the payload stands at the header (R60). -/
theorem PrefixPassed.eq_framed {bs : List Byte} {off h n : Nat} (hp : PrefixPassed bs off h n)
    (hfit : h + 7 + n ≤ bs.length) (hc : bs[h + 5 + n]? = some (xorSum ((bs.drop (h + 5)).take n)))
    (hf : bs[h + 6 + n]? = some 0x04) :
    bs = bs.take h ++ wireFrame ((bs.drop (h + 5)).take n) ++ bs.drop (h + 7 + n) := by
  obtain ⟨⟨-, ⟨-, ⟨e0, e1⟩, -⟩, -⟩, b2, b3, e2, e3, hflag, hn, -, e4⟩ := hp
  obtain ⟨hhi, hlo⟩ := lenHi_lenLo_of_flag (b3 := b3) hflag
  rw [← hn] at hhi hlo
  have hprefix : bs.drop h = prefixBytes n ++ bs.drop (h + 5) := by
    rw [drop_eq_cons e0, drop_eq_cons e1, drop_eq_cons e2, drop_eq_cons e3, drop_eq_cons e4, prefixBytes, hhi, hlo]
    rfl
  have hsuffix : bs.drop (h + 5 + n) = suffixBytes (xorSum ((bs.drop (h + 5)).take n)) ++ bs.drop (h + 7 + n) := by
    rw [drop_eq_cons hc, show h + 5 + n + 1 = h + 6 + n by omega, drop_eq_cons hf,
      show h + 6 + n + 1 = h + 7 + n by omega]
    rfl
  have hpayload := (List.take_append_drop n (bs.drop (h + 5))).symm
  rw [List.drop_drop, hsuffix] at hpayload
  rw [wireFrame_eq, length_slice hfit, List.append_assoc, List.append_assoc, List.append_assoc, ← hpayload, ← hprefix,
    List.take_append_drop]

/-- Settles O30: a success passed every test, so a frame stands at its header; and a frame at the first header passes
every test. -/
theorem scanFindsExactlyFrames : Obligations.ScanFindsExactlyFrames := by
  intro bs off p h
  rw [scanFinds_iff 0b10]
  constructor
  · intro hx
    obtain ⟨h', n, hp, hfit, hc, hf, hsuccess⟩ := scanRequest_eq_ok_tests 0b10 hx
    obtain ⟨rfl, hn, hslice⟩ := scanSuccess_injective hsuccess
    have hframed := hp.eq_framed hfit hc hf
    rw [← hslice] at hframed
    obtain ⟨hoff, -, hnone⟩ := hp.1.2.1
    exact ⟨hoff, hnone, hn ▸ hp.one_le, hn ▸ hp.le_max, _, _, hframed, List.length_take_of_le (by omega)⟩
  · rintro ⟨hoff, hnone, hmin, hmax, front, back, rfl, rfl⟩
    rw [scanRequest_found (by simp; omega) ⟨hoff, headerPair_framed front p back, hnone⟩,
      scanAt_framed front back hmin hmax]

/-- Noise before a frame holds no header pair, not even one that the frame's first byte would complete (R115). -/
theorem not_headerPair_noise {below noise rest : List Byte} {i : Nat} (hnoise : ∀ i, ¬ HeaderPair noise i)
    (hle : below.length ≤ i) (hlt : i < below.length + noise.length) :
    ¬ HeaderPair (below ++ noise ++ 0xA5 :: rest) i := by
  obtain ⟨j, rfl⟩ := Nat.exists_eq_add_of_le hle
  rintro ⟨h0, h1⟩
  rw [List.append_assoc, List.getElem?_append_right (by omega), Nat.add_sub_cancel_left,
    List.getElem?_append_left (by omega)] at h0
  rw [List.append_assoc, List.getElem?_append_right (by omega), Nat.add_assoc, Nat.add_sub_cancel_left] at h1
  by_cases hj : j + 1 < noise.length
  · rw [List.getElem?_append_left hj] at h1
    exact hnoise j ⟨h0, h1⟩
  · rw [List.getElem?_append_right (by omega), show j + 1 - noise.length = 0 by omega] at h1
    exact absurd h1 (by simp)

/-- Settles O33: the noise holds no header pair, so the frame behind it is what SCAN finds. -/
theorem scanToleratesNoise : Obligations.ScanToleratesNoise := by
  intro below noise p after hnoise hmin hmax
  refine (scanFindsExactlyFrames _ _ _ _).2
    ⟨by omega, fun i hle hlt => ?_, hmin, hmax, below ++ noise, after, rfl, by simp⟩
  have hframe : wireFrame p ++ after = 0xA5 :: ((wireFrame p).tail ++ after) := rfl
  rw [List.append_assoc, hframe]
  exact not_headerPair_noise hnoise hle hlt

/-- Settles O36: a success is the frame of its payload, standing in the buffer. -/
theorem scanPayloadWithinBounds : Obligations.ScanPayloadWithinBounds := by
  intro bs off p h hfinds
  obtain ⟨-, -, hmin, hmax, front, back, rfl, rfl⟩ := (scanFindsExactlyFrames bs off p h).1 hfinds
  have hfooter := getElem?_framed front back (getElem?_wireFrame_footer p)
  rw [← Nat.add_assoc] at hfooter
  exact ⟨hmin, hmax, by simp; omega, (headerPair_framed front p back).1, hfooter, slice_framed front p back⟩

/-! #### Damaged frames -/

/-- Behind header, non-zero length and marker SCAN's steps 1 to 5 pass, whatever stands there (R62). -/
theorem prefixPassed_prefixBytes {n : Nat} (hmin : 1 ≤ n) (hmax : n ≤ 32767) {rest : List Byte}
    (hrest : 3 ≤ rest.length) :
    PrefixPassed (prefixBytes n ++ rest) 0 0 n := by
  have hlen : (prefixBytes n ++ rest).length = rest.length + 5 := by simp [prefixBytes]
  have hfirst : FirstHeader (prefixBytes n ++ rest) 0 0 :=
    ⟨le_rfl, ⟨rfl, rfl⟩, fun i _ hi => absurd hi (Nat.not_lt_zero i)⟩
  refine ⟨⟨by omega, hfirst, by omega⟩, lenHi n, lenLo n, rfl, rfl, lenHi_flag n, ?_, by omega, rfl⟩
  rw [← decodeLength_eq, decodeLength_encoded hmax]

/-- Settles O34, by the three ranges of the cut. -/
theorem scanOfCutFrame : Obligations.ScanOfCutFrame := by
  intro p k hmin hmax hk
  have hlen : ((wireFrame p).take k).length = k := by simp; omega
  obtain ⟨hrange, hshort⟩ := scanBoundsPrecheck ((wireFrame p).take k) 0
  rw [hlen] at hrange hshort
  split
  · exact hrange.2 (by omega)
  split
  · exact (hshort (by omega)).2 (by omega)
  have hcut : (wireFrame p).take k = prefixBytes p.length ++ (p ++ suffixBytes (xorSum p)).take (k - 5) := by
    rw [wireFrame_eq, List.take_append, List.take_of_length_le (by simp [prefixBytes]; omega)]
    rfl
  have hp : PrefixPassed ((wireFrame p).take k) 0 0 p.length := by
    rw [hcut]
    exact prefixPassed_prefixBytes hmin hmax (by simp [suffixBytes]; omega)
  exact (scanTruncatedPayload _ _ _ _ hp).2 (by omega)

theorem xorSum_set {p : List Byte} {i : Nat} {b : Byte} (hb : p[i]? = some b) (m : Byte) :
    xorSum (p.set i (b ^^^ m)) = xorSum p ^^^ m := by
  induction p generalizing i with
  | nil => cases hb
  | cons c p ih =>
    cases i with
    | zero =>
      cases hb
      rw [List.set_cons_zero, xorSum_cons, xorSum_cons, BitVec.xor_assoc, BitVec.xor_assoc, BitVec.xor_comm m]
    | succ i => rw [List.set_cons_succ, xorSum_cons, xorSum_cons, ih hb, BitVec.xor_assoc]

/-- A payload of 1 to 32767 bytes behind its length and marker and before a byte that is not its checksum fails in step
8, whatever follows that byte (R110). -/
theorem scanFails_of_wrong_checksum {q rest : List Byte} {c : Byte} (hmin : 1 ≤ q.length) (hmax : q.length ≤ 32767)
    (hrest : 1 ≤ rest.length) (hc : xorSum q ^^^ c ≠ 0) :
    ScanFails (prefixBytes q.length ++ (q ++ c :: rest)) 0 .checksumMismatch := by
  have hprefix : (prefixBytes q.length).length = 5 := rfl
  have hp := prefixPassed_prefixBytes hmin hmax (rest := q ++ c :: rest) (by simp; omega)
  have hfit : q.length + 3 ≤ (prefixBytes q.length ++ (q ++ c :: rest)).length - (0 + 4) := by
    simp only [List.length_append, List.length_cons, hprefix]
    omega
  have hbyte : (prefixBytes q.length ++ (q ++ c :: rest))[0 + 5 + q.length]? = some c := by
    rw [Nat.zero_add, List.getElem?_append_right (by omega), hprefix, Nat.add_sub_cancel_left,
      List.getElem?_append_right le_rfl, Nat.sub_self]
    rfl
  have hslice : ((prefixBytes q.length ++ (q ++ c :: rest)).drop (0 + 5)).take q.length = q := List.take_left
  exact (scanChecksumMismatch _ 0 0 q.length c hp hfit hbyte).2 (hslice.symm ▸ hc)

/-- A byte set in the payload of a frame leaves the fixed parts and the checksum byte (R60). -/
theorem wireFrame_set_payload {p : List Byte} {i : Nat} (hi : i < p.length) (v : Byte) :
    (wireFrame p).set (5 + i) v = prefixBytes p.length ++ (p.set i v ++ suffixBytes (xorSum p)) := by
  have hprefix : (prefixBytes p.length).length = 5 := rfl
  rw [wireFrame_eq, List.set_append_right _ _ (by omega), hprefix, Nat.add_sub_cancel_left,
    List.set_append_left _ _ hi]

/-- Settles O35: the payload's checksum changes in the flipped bit, and the checksum byte does not. -/
theorem payloadBitFlipDetected : Obligations.PayloadBitFlipDetected := by
  intro p after i k b hmin hmax hb hk
  have hbit : ∀ k < 8, (1#8 <<< k) ≠ 0 := by decide
  have hxor : xorSum (p.set i (b ^^^ 1#8 <<< k)) ^^^ xorSum p = 1#8 <<< k := by
    rw [xorSum_set hb, BitVec.xor_comm, ← BitVec.xor_assoc, BitVec.xor_self, BitVec.zero_xor]
  rw [wireFrame_set_payload (List.getElem?_eq_some_iff.1 hb).1, List.append_assoc, List.append_assoc, suffixBytes,
    ← List.length_set (as := p) (i := i) (a := b ^^^ 1#8 <<< k)]
  refine scanFails_of_wrong_checksum (by simpa using hmin) (by simpa using hmax) (by simp) ?_
  rw [hxor]
  exact hbit k hk

end Sys2Proof.Machine

/-! ### What CSUM computes (R130 to R132) -/

namespace Sys2Proof.Machine

/-- Bit `k` of an exclusive-or is the parity of that bit over the bytes (R132). -/
theorem getLsbD_xorSum (bs : List Byte) (k : Nat) :
    (xorSum bs).getLsbD k = true ↔ bs.countP (fun b => b.getLsbD k) % 2 = 1 := by
  induction bs with
  | nil => simp
  | cons b bs ih =>
    rw [xorSum_cons, BitVec.getLsbD_xor, List.countP_cons]
    cases hb : b.getLsbD k with
    | false => simpa using ih
    | true =>
      rw [Bool.true_xor, Bool.not_eq_true', ← Bool.not_eq_true, ih, if_pos rfl]
      omega

/-- Exclusive-or is commutative and associative, so it does not depend on the order of the bytes (R132). -/
theorem xorSum_perm {bs cs : List Byte} (h : bs.Perm cs) : xorSum bs = xorSum cs := h.foldl_eq 0

/-- CSUM reads of a byte sequence only what every order of its bytes has in common (R130, R131). -/
theorem checksumRequest_perm {bs cs : List Byte} (h : bs.Perm cs) (op : BitVec 2) (off : Nat) :
    checksumRequest (requestOf op bs off) = checksumRequest (requestOf op cs off) := by
  have hnil : bs = [] ↔ cs = [] := by rw [← List.length_eq_zero_iff, h.length_eq, List.length_eq_zero_iff]
  simp only [checksumRequest_requestOf, hnil, xorSum_perm h]

/-- Settles O41: CSUM answers the exclusive-or, whose bits are parities. -/
theorem csumBitIsParity : Obligations.CsumBitIsParity := by
  intro bs c k h
  obtain ⟨-, rfl⟩ := csumGives_byte_iff.1 h
  exact getLsbD_xorSum bs k

/-- Settles O42: the state that holds the bytes in the other order ends with the same response. -/
theorem csumIgnoresOrder : Obligations.CsumIgnoresOrder := by
  intro bs cs x hperm h s op off hreq
  let t : State := { s with requests := [requestOf op bs off] }
  calc exec .csum s
      _ = conclude s (checksumRequest (requestOf op cs off)) := exec_csum_eq hreq
      _ = conclude s (checksumRequest (requestOf op bs off)) := by rw [checksumRequest_perm hperm]
      _ = conclude t (checksumRequest (requestOf op bs off)) := conclude_congr rfl _
      _ = exec .csum t := (exec_csum_eq rfl).symm
      _ = .next (answered s x) := h t op off rfl

/-- Settles O39: the fold from the first byte is the exclusive-or of the whole sequence. -/
theorem csumReducesByXor : Obligations.CsumReducesByXor := by
  intro s op off b bs hreq
  have hfold : bs.foldl (fun acc c => acc ^^^ c) b = xorSum (b :: bs) := by rw [foldl_xor_init, xorSum_cons]
  exact csumGives_byte_iff.2 ⟨List.cons_ne_nil b bs, hfold⟩ s op off hreq

/-- Settles O40: `EmptyInput` is raised before a byte is read (R131, D9). -/
theorem csumOfEmptyFails : Obligations.CsumOfEmptyFails := by
  intro s op off hreq
  rw [exec_csum_eq hreq, checksumRequest_requestOf, if_pos rfl, conclude_raise]

end Sys2Proof.Machine

/-! ### STATUS: its codes, the classes of failures, and the response of a failure -/

namespace Sys2Proof.Machine

/-! #### Codes and classes -/

/-- No failure has one of the codes D to F (D5). -/
theorem failureCode_le (f : Failure) : (failureCode f).toNat ≤ 0xC := by
  cases f with
  | encode e => cases e <;> decide
  | decode e => cases e <;> decide
  | csum e => cases e; decide

/-- Settles O44: the table row by row, and the bound for success and for every failure. -/
theorem statusCodesOfTable : Obligations.StatusCodesOfTable := by
  refine ⟨rfl, rfl, rfl, rfl, rfl, rfl, rfl, rfl, rfl, rfl, rfl, rfl, rfl, rfl, fun st => ?_⟩
  cases st with
  | ok => exact Nat.zero_le _
  | failed f => exact failureCode_le f

@[simp] theorem failureClass_encode (e : EncodeError) : failureClass (.encode e) = some .malformedInput := by
  cases e <;> rfl

@[simp] theorem failureClass_csum (e : CsumError) : failureClass (.csum e) = none := rfl

/-- SCAN's failures are split between classes (b) and (c) (R144, D19). -/
theorem failureClass_decode (e : DecodeError) :
    failureClass (.decode e) =
      if e ∈ [DecodeError.bufferTooShort, .truncatedLengthOrMarker, .truncatedPayload, .offsetOutOfRange,
        .headerNotFound] then some .exhaustion else some .mismatch := by
  cases e <;> rfl

/-- Settles O45: ENC's failures and CSUM's each have one class; SCAN's are split in two. -/
theorem failureClassesOfTable : Obligations.FailureClassesOfTable := by
  intro f
  cases f with
  | encode e => simp
  | decode e => cases e <;> simp [failureClass_decode]
  | csum e => cases e; simp

/-! #### A success has the status `ok` -/

theorem encodeRequest_eq_ok {r : Request} {x : Response} (e : encodeRequest r = .ok x) :
    ∃ m n, x = Response.encOk m n := by
  unfold encodeRequest at e
  split at e
  · cases e
  split at e
  · cases e
  obtain ⟨p, -, e⟩ := bind_eq_ok e
  obtain ⟨c, -, e⟩ := bind_eq_ok e
  exact ⟨_, _, (Except.ok.inj e).symm⟩

theorem checksumRequest_eq_ok {r : Request} {x : Response} (e : checksumRequest r = .ok x) :
    ∃ c, x = Response.csumOk c := by
  unfold checksumRequest at e
  split at e
  · cases e
  obtain ⟨bs, -, e⟩ := bind_eq_ok e
  obtain ⟨c, -, e⟩ := bind_eq_ok e
  exact ⟨c, (Except.ok.inj e).symm⟩

/-- Whatever the working values are, SCAN's only successes are those of its step 10 (R112). `scanRest_eq_ok` says more
for well-formed ones. -/
theorem scanRest_eq_scanSuccess {r : Request} {w : Work} {x : Response} (e : scanRest r w = .ok x) :
    ∃ h n p, x = scanSuccess h n p := by
  unfold scanRest at e
  split at e
  · exact ⟨_, _, _, scanEnd_eq_ok e⟩
  · obtain ⟨h, n, p, -, hx⟩ := scanFrom_eq_ok e
    exact ⟨h, n, p, hx⟩
  · obtain ⟨h, n, p, -, hx⟩ := scanRequest_eq_ok e
    exact ⟨h, n, p, hx⟩

/-- No instruction succeeds with a failure's status, on any request and any working values. -/
theorem SucceedsWith.status_eq_ok {i : Instr} {r : Request} {w : Work} {x : Response} (h : SucceedsWith i r w x) :
    x.status = .ok := by
  cases i with
  | enc =>
    obtain ⟨_, _, rfl⟩ := encodeRequest_eq_ok h
    rfl
  | scan =>
    obtain ⟨_, _, _, rfl⟩ := scanRest_eq_scanSuccess h
    rfl
  | csum =>
    obtain ⟨_, rfl⟩ := checksumRequest_eq_ok h
    rfl
  | framePrefix n => exact h.elim
  | frameSuffix c =>
    obtain ⟨_, _, _, _, -, rfl⟩ := h
    rfl

/-- Settles O46: of an instruction's moves only the failure delivers a response whose status is not `ok`, and that
response is `failedWith`. -/
theorem failureLeavesOnlyStatus : Obligations.FailureLeavesOnlyStatus := by
  intro i s t x hexec hx hstatus
  obtain ⟨r, -, hm⟩ := exec_next hexec
  cases hm with
  | failed f =>
    obtain rfl : failedWith f = x := Option.some.inj hx
    exact ⟨rfl, rfl, rfl, rfl, rfl⟩
  | succeeded y hy =>
    obtain rfl : y = x := Option.some.inj hx
    exact absurd hy.status_eq_ok hstatus
  | payloadTaken n p acc _ _ => cases hx

end Sys2Proof.Machine

/-! ### Reset and hazards: what is refused, what is abandoned, and what every served request gets -/

namespace Sys2Proof.Machine

/-! #### Steps and meanings with nothing to serve -/

/-- The step after the host applies reset answers the reset state, whatever was pending (R170, R171). -/
theorem step_applyReset (s : State) : step (applyReset s) = .next State.reset := if_pos rfl

/-- The step refuses two pending requests (R174, U4). -/
theorem step_overlap {s : State} {r r' : Request} {rs : List Request} (hreset : s.resetIn = false)
    (hreq : s.requests = r :: r' :: rs) : step s = .refused .requestOverlap := by
  simp [step, hreset, hreq]

theorem onRequest_idle {s : State} (hreq : s.requests = []) (k : Request → Host.Outcome State Fault Refusal) :
    onRequest s k = .refused .noRequest := by
  simp [onRequest, hreq]

theorem onRequest_overlap {s : State} {r r' : Request} {rs : List Request} (hreq : s.requests = r :: r' :: rs)
    (k : Request → Host.Outcome State Fault Refusal) : onRequest s k = .refused .requestOverlap := by
  simp [onRequest, hreq]

/-- Every meaning acts on the one pending request (R23, R79). -/
theorem exec_eq_onRequest (i : Instr) (s : State) : ∃ k, exec i s = onRequest s k := by
  cases i <;> exact ⟨_, rfl⟩

/-- Settles O10: the request issued stands behind the one pending. -/
theorem overlappingRequestRefused : Obligations.OverlappingRequestRefused := by
  intro s r hreset hne
  obtain ⟨r₀, rs, hreq⟩ := List.exists_cons_of_ne_nil hne
  have happend : rs ++ [r] ≠ [] := List.append_ne_nil_of_right_ne_nil rs (List.cons_ne_nil r [])
  obtain ⟨r₁, rs', hrest⟩ := List.exists_cons_of_ne_nil happend
  exact step_overlap hreset (by rw [issue_requests, hreq, List.cons_append, hrest])

/-- Settles O11: the step answers the reset state. -/
theorem resetAbandonsPendingOperation : Obligations.ResetAbandonsPendingOperation := fun s =>
  ⟨State.reset, step_applyReset s, reset_resetIn, reset_requests, reset_response, reset_work⟩

/-- Settles O52: every meaning looks for its one request first, and `FRAME.SUFFIX` then for the payload taken. -/
theorem nothingToActOnRefused : Obligations.NothingToActOnRefused := by
  intro i s
  obtain ⟨k, hk⟩ := exec_eq_onRequest i s
  refine ⟨fun hreq => ?_, fun r r' rs hreq => ?_, fun r c hreq htaken => ?_⟩
  · rw [hk, onRequest_idle hreq]
  · rw [hk, onRequest_overlap hreq]
  · rw [exec, execFrameSuffix, onRequest_single hreq]
    split
    · rename_i hw
      rw [hw] at htaken
      cases htaken
    · rfl

/-! #### Reading a response -/

/-- Without a response there is nothing to read (R32, U2). -/
theorem readField_no_response {s : State} (hx : s.response = none) (f : Field) :
    readField s f = .error .absentField := by
  rw [readField, hx]
  rfl

/-- A field of the response is read as its value, and faults where it has none (R25, R175). -/
theorem readField_of_field {s : State} {f : Field} {α : Type} {x : Response} (hx : s.response = some x) (o : Option α)
    (g : α → FieldValue) (hf : x.field f = o.map g) :
    readField s f = o.elim (.error .absentField) fun a => .ok (g a) := by
  rw [readField, hx, Option.bind_some, hf]
  cases o <;> rfl

/-- Settles O47: the two laws of reading, the second field by field. -/
theorem readOfAbsentFieldFaults : Obligations.ReadOfAbsentFieldFaults := by
  refine ⟨fun s f hx => readField_no_response hx f, fun s x hx => ?_⟩
  refine ⟨readField_of_field hx (some (statusCode x.status)) .code rfl,
    (readField_of_field hx x.out .bytes rfl).trans ?_, (readField_of_field hx x.outLen .index rfl).trans ?_,
    (readField_of_field hx x.hdrIdx .index rfl).trans ?_, (readField_of_field hx x.endIdx .index rfl).trans ?_,
    (readField_of_field hx x.csum .byte rfl).trans ?_⟩
  · cases x.out <;> rfl
  · cases x.outLen <;> rfl
  · cases x.hdrIdx <;> rfl
  · cases x.endIdx <;> rfl
  · cases x.csum <;> rfl

/-! #### The host's two ways on after SCAN -/

/-- Settles O38: the next offset stands right behind the footer, so step 1's two tests decide (R101). -/
theorem nextOffsetAfterSuccess : Obligations.NextOffsetAfterSuccess := by
  intro bs off p h _
  rw [nextOffset]
  obtain ⟨hrange, hshort⟩ := scanBoundsPrecheck bs (h + 6 + p.length + 1)
  exact ⟨fun hend => hrange.2 (by omega), fun hmore hfew => (hshort (by omega)).2 (by omega)⟩

/-- The second byte of a header pair is not the first of another (R70). -/
theorem HeaderPair.not_succ {bs : List Byte} {i : Nat} (hp : HeaderPair bs i) : ¬ HeaderPair bs (i + 1) := by
  rintro ⟨h0, -⟩
  exact absurd (hp.2.symm.trans h0) (by decide)

/-- SCAN may start one further on where no header begins, while eight bytes are left (R101, R102). -/
theorem scanGives_skip {bs : List Byte} {i : Nat} {x : Response} (hp : ¬ HeaderPair bs i)
    (hlen : i + 1 + 8 ≤ bs.length) : ScanGives bs i x ↔ ScanGives bs (i + 1) x := by
  rcases firstHeader_or_none (bs := bs) i with ⟨h, hh⟩ | hnone
  · have hne : h ≠ i := fun e => hp (e ▸ hh.2.1)
    have hle := hh.1
    exact offsetBeforeHeaderGivesSameAnswer bs i (i + 1) h x hh (by omega) (by omega) hlen
  · have hfrom := (scanSearchesFirstHeader bs i (by omega)).1.2 hnone
    have hnext := (scanSearchesFirstHeader bs (i + 1) hlen).1.2 fun j hj => hnone j (by omega)
    rw [scanFails_iff 0b10] at hfrom hnext
    rw [scanGives_iff 0b10, scanGives_iff 0b10, hfrom, hnext]

/-- Settles O37: the host's search is SCAN's own, and the index behind a header's first byte begins no header. -/
theorem retryPassesFailedHeader : Obligations.RetryPassesFailedHeader := by
  intro op bs off h hh
  have hnot : ¬ HeaderPair bs (h + 1) := hh.2.1.not_succ
  refine ⟨?_, hnot, fun x hlen => scanGives_skip hnot hlen⟩
  rw [retryOffset, requestOf_inLen, requestOf_offset, findHeader_found hh]
  rfl

/-! #### Every request is answered -/

/-- Whatever response a well-formed request's instruction delivers is well-formed. -/
theorem Moves.responseOk {i : Instr} {r : Request} {s t : State} {x : Response} (hm : Moves i r s t)
    (hr : RequestOk r) (hw : WorkOk r s.work) (hx : t.response = some x) : ResponseOk x := by
  cases hm with
  | failed f => exact Option.some.inj hx ▸ responseOk_failedWith f
  | succeeded y hy => exact Option.some.inj hx ▸ hy.responseOk hr hw
  | payloadTaken n p acc _ _ => cases hx

/-- A code that is not the reserved one selects an operation (R75, R76). -/
theorem exists_selected {v : BitVec 2} (hv : v ≠ 0b00) : ∃ i, decode (.op v) = .ok i := by
  rcases decodeOp_cases v with ⟨h, -⟩ | ⟨-, h⟩ | ⟨-, h⟩ | ⟨-, h⟩
  · exact absurd h hv
  · exact ⟨_, h⟩
  · exact ⟨_, h⟩
  · exact ⟨_, h⟩

/-- An operation ends with a response or a model fault. -/
theorem conclude_answers_or_faults (s : State) (e : Except Stop Response) :
    (∃ x, conclude s e = .next (answered s x)) ∨ ∃ f, conclude s e = .fault f := by
  match e with
  | .ok x => exact .inl ⟨x, conclude_ok s x⟩
  | .error (.raise f) => exact .inl ⟨failedWith f, conclude_raise s f⟩
  | .error (.fault f) => exact .inr ⟨f, conclude_fault s f⟩

/-- An operation `OP` selects answers a well-formed request with a well-formed response (R140, R183). -/
theorem exec_selected_answers {s : State} {r : Request} {i : Instr} (hi : decode (.op r.op) = .ok i)
    (hreq : s.requests = [r]) (hr : RequestOk r) (hw : WorkOk r s.work) :
    ∃ x, ResponseOk x ∧ exec i s = .next (answered s x) := by
  obtain ⟨e, he⟩ := exec_selected_eq_conclude hi r s.work
  have hexec := he s hreq rfl
  rcases conclude_answers_or_faults s e with ⟨x, hx⟩ | ⟨f, hf⟩
  · have hnext := hexec.trans hx
    obtain ⟨r', hreq', hm⟩ := exec_next hnext
    obtain rfl : r = r' := by simpa [hreq] using hreq'
    exact ⟨x, hm.responseOk hr hw rfl, hnext⟩
  · exact absurd (hexec.trans hf) (hr.exec_ne_fault hreq hw i f)

/-- Settles O58: the step is the operation selected, which neither faults nor is refused. -/
theorem everyOperationAnswers : Obligations.EveryOperationAnswers := by
  intro s r hreset hreq hw hr hop
  obtain ⟨i, hi⟩ := exists_selected hop
  rw [stepRunsSelectedOperation s r i hreset hreq (by rw [hw, Work.idle_pos]) hi]
  exact exec_selected_answers hi hreq hr (.inl hw)

/-! #### Requests one after another -/

/-- The block waits for a request: reset not applied, none pending, no operation in progress (R32, R170). -/
structure Waiting (s : State) : Prop where
  resetIn  : s.resetIn = false
  requests : s.requests = []
  work     : s.work = Work.idle

theorem waiting_reset : Waiting State.reset := ⟨rfl, rfl, rfl⟩

/-- A block that has answered waits for the next request (R20, R23). -/
theorem waiting_answered {s : State} (hs : Waiting s) (x : Response) : Waiting (answered s x) :=
  ⟨hs.resetIn, rfl, rfl⟩

/-- Waiting blocks that answer alike go to the same state (R20). -/
theorem answered_congr {s t : State} (hs : Waiting s) (ht : Waiting t) (x : Response) :
    answered s x = answered t x := by
  rw [answered, answered, hs.resetIn, ht.resetIn]

/-- Serving a request is the step after issuing it. -/
theorem serve_eq_some {s : State} {r : Request} {x : Response} (h : step (issue s r) = .next (answered s x)) :
    serve s r = some (answered s x, x) := by
  rw [serve, h]
  rfl

/-- A well-formed request gets one response, the same from every waiting block (R20, R183). -/
theorem serve_waiting {r : Request} (hr : RequestOk r) (hop : r.op ≠ 0b00) :
    ∃ x, ∀ s, Waiting s → serve s r = some (answered s x, x) := by
  obtain ⟨x, -, hx⟩ := everyOperationAnswers (issue State.reset r) r rfl rfl rfl hr hop
  refine ⟨x, fun s hs => serve_eq_some ?_⟩
  obtain ⟨hstep, -⟩ := responseDependsOnRequestAlone (issue State.reset r) (issue s r) _ r rfl hs.resetIn rfl
    (issue_idle_requests hs.requests r) rfl hs.work hx
  rw [hstep, answered_issue, answered_congr waiting_reset hs]

/-- From a waiting block every request of a list gets the response it gets after reset (R20, R174). -/
theorem serveAll_waiting {rs : List Request} (hrs : ∀ r ∈ rs, RequestOk r ∧ r.op ≠ 0b00) {s : State}
    (hs : Waiting s) :
    ∃ xs, serveAll s rs = some xs ∧ List.Forall₂ (fun r x => ∃ t, serve State.reset r = some (t, x)) rs xs := by
  induction rs generalizing s with
  | nil => exact ⟨[], rfl, .nil⟩
  | cons r rs ih =>
    obtain ⟨⟨hr, hop⟩, hrest⟩ := List.forall_mem_cons.1 hrs
    obtain ⟨x, hx⟩ := serve_waiting hr hop
    obtain ⟨xs, hxs, hall⟩ := ih hrest (waiting_answered hs x)
    refine ⟨x :: xs, ?_, .cons ⟨_, hx _ waiting_reset⟩ hall⟩
    rw [serveAll, hx s hs]
    simp only [hxs, Option.map_some]

/-- Settles O15: the reset block waits, and each served request leaves it waiting. -/
theorem requestsAnsweredInOrder : Obligations.RequestsAnsweredInOrder := by
  intro rs hrs
  obtain ⟨xs, hxs, hall⟩ := serveAll_waiting hrs waiting_reset
  refine ⟨xs, hxs, hall.length_eq.symm, fun i r x hr hx => ?_⟩
  obtain ⟨hi, rfl⟩ := List.getElem?_eq_some_iff.1 hr
  obtain ⟨hi', rfl⟩ := List.getElem?_eq_some_iff.1 hx
  exact (List.forall₂_iff_get.1 hall).2 i hi hi'

end Sys2Proof.Machine

/-! ### The decoder and the encoder undo each other, and the idle step -/

namespace Sys2Proof.Machine

/-! #### Codes -/

/-- A well-formed `FRAME.PREFIX` carries a 15-bit length (R66, R71). -/
theorem wf_framePrefix_iff (n : Nat) : (Instr.framePrefix n).wf = true ↔ n ≤ 32767 := by
  rw [Instr.wf, decide_eq_true_iff, scanMaxPayload_eq]

/-- The wire bytes of an encoded `FRAME.PREFIX` decode to the length they were made for (R62, R66, R67). -/
theorem decode_prefixBytes {n : Nat} (h : n ≤ 32767) : decode (.frame (prefixBytes n)) = .ok (.framePrefix n) := by
  rw [prefixBytes, decode_five_bytes, if_pos ⟨hdr0_eq, hdr1_eq, lenHi_flag n, marker_eq⟩, ← decodeLength_eq,
    decodeLength_encoded h]

/-- The wire bytes of an encoded `FRAME.SUFFIX` decode to the checksum they carry (R64). -/
theorem decode_suffixBytes (c : Byte) : decode (.frame (suffixBytes c)) = .ok (.frameSuffix c) := by
  rw [suffixBytes, decode_two_bytes, if_pos footer_eq]

/-- Settles O2, by the row: an operation's code by evaluation, a wire-frame row by the round trip of its bytes. -/
theorem decodeOfEncodeIsIdentity : Obligations.DecodeOfEncodeIsIdentity := by
  intro i hwf
  cases i with
  | enc => rfl
  | scan => rfl
  | csum => rfl
  | framePrefix n => exact decode_prefixBytes ((wf_framePrefix_iff n).1 hwf)
  | frameSuffix c => exact decode_suffixBytes c

/-- An `OP` that decodes is the code of the well-formed operation it selects (R75, R76). -/
theorem wf_and_encode_of_decode_op {v : BitVec 2} {i : Instr} (h : decode (.op v) = .ok i) :
    i.wf = true ∧ encode i = .op v := by
  rcases decodeOp_cases v with ⟨-, hd⟩ | ⟨rfl, hd⟩ | ⟨rfl, hd⟩ | ⟨rfl, hd⟩ <;> rw [hd] at h <;> cases h
  · exact ⟨rfl, rfl⟩
  · exact ⟨rfl, rfl⟩
  · exact ⟨rfl, rfl⟩

/-- The bytes of a `FRAME.PREFIX` with its flag bit set are those its length is encoded as (R62, R63, R67). -/
theorem prefixBytes_of_flag {b2 : Byte} (hflag : b2 &&& 0x80 ≠ 0) (b3 : Byte) :
    prefixBytes (b2.toNat % 128 * 256 + b3.toNat) = [0xA5, 0x5A, b2, b3, 0xA0] := by
  obtain ⟨hhi, hlo⟩ := lenHi_lenLo_of_flag (b3 := b3) hflag
  rw [prefixBytes, hhi, hlo, hdr0_eq, hdr1_eq, marker_eq]

/-- Wire bytes that decode are the code of the well-formed frame part they decode to (R62, R64). -/
theorem wf_and_encode_of_decode_frame {bytes : List Byte} {i : Instr} (h : decode (.frame bytes) = .ok i) :
    i.wf = true ∧ encode i = .frame bytes := by
  rcases decode_frame_length h with hlen | hlen
  · obtain ⟨b2, b3, rfl, hflag, rfl⟩ := eq_framePrefix_of_decode hlen h
    obtain ⟨-, hmax⟩ := decode_frame_prefix h
    exact ⟨(wf_framePrefix_iff _).2 hmax, congrArg Code.frame (prefixBytes_of_flag hflag b3)⟩
  · obtain ⟨c, rfl, rfl⟩ := eq_frameSuffix_of_decode hlen h
    exact ⟨rfl, rfl⟩

/-- Settles O3, by the kind of code. -/
theorem encodeOfDecodeIsIdentity : Obligations.EncodeOfDecodeIsIdentity := by
  intro c i h
  cases c with
  | op v => exact wf_and_encode_of_decode_op h
  | frame bytes => exact wf_and_encode_of_decode_frame h

/-! #### The idle step -/

/-- A step with no request pending clears the response and the working values (assumptions 2 and 3). -/
theorem step_idle {s : State} (hreset : s.resetIn = false) (hreq : s.requests = []) :
    step s = .next { s with response := none, work := Work.idle } := by
  simp [step, hreset, hreq]

/-- Settles O13: the idle step's next state, field by field. -/
theorem idleStepDeliversNothing : Obligations.IdleStepDeliversNothing := by
  intro s hreset hreq
  exact ⟨_, step_idle hreset hreq, hreset, hreq, rfl, rfl⟩

end Sys2Proof.Machine
